-- ==== Sys2Proof/Word.lean ====
section
/-! DEFINITION. The word types of gate CORE (spec 00_scope.md R7, 10_state.md R20 to R26): bytes, 16-bit words, and the
indexes of registers and keys. Every quantity is unsigned (R7). -/

namespace Sys2Proof

/-- A byte: a general register, a memory cell, a timer (R20, R25, R26, R60). -/
abbrev Byte := BitVec 8

/-- A 16-bit word: an instruction word, `I`, `pc`, a stack slot (R22, R23, R24, R80). -/
abbrev Word := BitVec 16

/-- The index of a general register, a 4-bit field `x` or `y` (R9, R20). -/
abbrev Reg := Fin 16

/-- The index of a key, 0x0 to 0xF (R29). -/
abbrev Key := Fin 16

end Sys2Proof
end

