-- ==== Sys2Proof/Config.lean ====
section
/-! DEFINITION. The fixed parameters of the hardware (spec 00_scope.md R5) and the three open ones of R6: FONT and KEY_PICK, plain data
with the spec's default, and the random byte RND, a free value. -/

namespace Sys2Proof.Config

/-- `MEM_SIZE`: bytes of memory, addresses 0x000 to 0xFFF (R5). -/
@[simp] abbrev memSize : Nat := 4096

/-- `FONT_LEN`: bytes of the font, addresses 0x000 to 0x04F (R5). -/
@[simp] abbrev fontLen : Nat := 80

/-- `PROG_BASE`: first byte of the program image, reset value of `pc`, lowest address the engine may store to (R5). -/
@[simp] abbrev progBase : Nat := 0x200

/-- `MAX_IMAGE`: the largest program image in bytes (R5). -/
@[simp] abbrev maxImage : Nat := 3584

/-- `RND` (R6, R141): the byte drawn by the `n`-th execution of `Cxkk`. A free value: it has no body, so nothing can be proved of
it, and a claim that holds, holds whatever bytes are drawn. DESIGN CHOICE, safe: notes/assumptions/3.md. -/
opaque randomByte : Nat → Byte

/-- The type of `FONT` (R6, R62): 80 bytes. -/
abbrev Font := Vector Byte fontLen

/-- The type of `KEY_PICK` (R6, R173), a choice function written out as plain data: pairs of a set of pressed keys, in ascending order,
and the key reported for it. A set that is not listed, or is listed with a key outside it, gets the spec's default, its lowest
key (`Machine.keyPick`). Every choice function has such a table (`Machine.keyPick_of_choice`). -/
abbrev KeyPick := List (List Key × Key)

/-- The two open parameters of R6 that are not free inputs. -/
structure Params where
  /-- `FONT` -/
  font : Font
  /-- `KEY_PICK` -/
  keyPick : KeyPick
deriving DecidableEq, Repr

end Sys2Proof.Config
end

