-- ==== Sys2Proof/Machine/Font.lean ====
section
/-! DEFINITION. The defaults of the parameters FONT and KEY_PICK (spec 00_scope.md R6). The spec marks the font bytes (20_memory.md R62)
as taken from general knowledge: PRESUMED, unsafe, notes/assumptions/5.md. KEY_PICK is the spec's decision D12: notes/assumptions/4.md. -/

namespace Sys2Proof.Machine

/-- Glyphs 0 to 7 of R62, five rows each, the leftmost pixel in bit 7. -/
def fontGlyphs0to7 : List Byte :=
  [0xF0, 0x90, 0x90, 0x90, 0xF0] ++ [0x20, 0x60, 0x20, 0x20, 0x70] ++
  [0xF0, 0x10, 0xF0, 0x80, 0xF0] ++ [0xF0, 0x10, 0xF0, 0x10, 0xF0] ++
  [0x90, 0x90, 0xF0, 0x10, 0x10] ++ [0xF0, 0x80, 0xF0, 0x10, 0xF0] ++
  [0xF0, 0x80, 0xF0, 0x90, 0xF0] ++ [0xF0, 0x10, 0x20, 0x40, 0x40]

/-- Glyphs 8 to F of R62. -/
def fontGlyphs8toF : List Byte :=
  [0xF0, 0x90, 0xF0, 0x90, 0xF0] ++ [0xF0, 0x90, 0xF0, 0x10, 0xF0] ++
  [0xF0, 0x90, 0xF0, 0x90, 0x90] ++ [0xE0, 0x90, 0xE0, 0x90, 0xE0] ++
  [0xF0, 0x80, 0x80, 0x80, 0xF0] ++ [0xE0, 0x90, 0x90, 0x90, 0xE0] ++
  [0xF0, 0x80, 0xF0, 0x80, 0xF0] ++ [0xF0, 0x80, 0xF0, 0x80, 0x80]

/-- The default of `FONT[0..79]` (R62): glyph `N` at `N * 5`. -/
def font : List Byte := fontGlyphs0to7 ++ fontGlyphs8toF

/-- The default table as the parameter FONT. -/
def defaultFont : Config.Font := ⟨font.toArray, rfl⟩

/-- The parameters at the spec's defaults (R6): the table of R62, and KEY_PICK the lowest index, which needs no entry. -/
def defaultParams : Config.Params := ⟨defaultFont, []⟩

end Sys2Proof.Machine
end

