-- ==== Sys2Proof/Machine/State.lean ====
section
/-! DEFINITION. The state of gate CORE as plain data (spec 10_state.md R20 to R36), the fatal fault kinds (60_exceptions.md R180),
the outputs of a step (R33, R108), and the state right after reset (R35). -/

namespace Sys2Proof.Machine

/-- The fatal fault kinds (R31, R180). A kind is raised by `Machine.raise`, which latches it in `State.fault` and answers a NEXT
state, because the spec describes that entry (R184); no step of this model ends in `Host.Outcome.fault`
(notes/assumptions/1.md). -/
inductive Fault where
  /-- Raised by the fetch when `pc + 1 > 0xFFF` (R102) and by `DRW`, `LDM`, `BCD`, `STM` when a byte they touch lies above 0xFFF
  (R181). Safe: the run is over. -/
  | addressOutOfRange
  /-- Raised by `CALL` when `sp = 16` (R182). Safe: the run is over. -/
  | stackOverflow
  /-- Raised by `RET` when `sp = 0` (R182). Safe: the run is over. -/
  | stackUnderflow
  /-- Raised by `BCD`, `STM` when a byte they store lies below 0x200 (R183). Safe: the run is over. -/
  | protectedWrite
  /-- Raised by `SKP`, `SKNP` when `V[x] > 15` (R183). Safe: the run is over. -/
  | keyIndexOutOfRange
deriving DecidableEq, Repr

/-- What has no meaning and is refused. No step and no instruction of this model is refused: the last three are answers of the
host's operations in Sys2Proof/Machine/Boundary.lean (notes/assumptions/7.md). -/
inductive Refusal where
  /-- An instruction with no meaning yet, refused in exec's arm; no arm uses it. Safe: the model stops where the hardware goes on. -/
  | notModelled (mnemonic : String)
  /-- An operation other than reset called before the first one (R222), refused by `hostCall`. Safe: there is no move. -/
  | notYetReset
  /-- A program load after a step has been made (R225), refused by `hostLoad`. Safe: there is no move. -/
  | loadAfterStep
  /-- A key index outside 0 to 15 (R201), refused by `hostSetKey`. Safe: there is no move. -/
  | keyIndexOutsideLatch
deriving DecidableEq, Repr

/-- The outcome a step reports (R33, R108). -/
inductive StepOutcome where
  /-- the instruction completed, the timers ticked -/
  | done
  /-- `Fx0A` found no key pressed: nothing changed -/
  | awaitingInput
  /-- the latch was set, or the fetch or the instruction raised the kind -/
  | fault (kind : Fault)
deriving DecidableEq, Repr

/-- The three outputs of a step (R33). -/
structure StepOutputs where
  outcome : StepOutcome
  beep : Bool
  unknown : Bool
deriving DecidableEq, Repr

/-- The memory (R30, R60): the bytes that differ from their reset contents, addresses strictly rising. What an unlisted address
reads as is `Machine.unlisted`; the canonical form is `Machine.Memory.wf`, both in Sys2Proof/Machine/Memory.lean. -/
abbrev Memory := List Host.Cell

/-- The framebuffer (R27): `fb[r][c]`, 32 rows of 64 pixels, `true` = on. -/
abbrev Frame := Vector (Vector Bool 64) 32

/-- The state of the engine: every line of R32 and R35, and three fields of the model's own. -/
structure State where
  /-- `V[0..15]` (R20); `V[15]` is also the flag (R21). -/
  v : Vector Byte 16
  /-- `I` (R22). -/
  index : Word
  /-- `pc` (R23). -/
  pc : Word
  /-- `sp`, an integer 0 to 16 (R24): the number of return addresses held. -/
  sp : Fin 17
  /-- `stack[0..15]` (R24). -/
  stack : Vector Word 16
  /-- `DT` (R25). -/
  dt : Byte
  /-- `ST` (R26). -/
  st : Byte
  /-- `fb[r][c]` (R27). -/
  fb : Frame
  /-- the redraw flag (R28). -/
  redraw : Bool
  /-- `key[0..15]` (R29), `true` = pressed. -/
  keys : Vector Bool 16
  /-- `mem[0x000..0xFFF]` (R30, R60). -/
  mem : Memory
  /-- the fault latch (R31). -/
  fault : Option Fault
  /-- The model's own: the outputs of the most recent step, `none` before any step. The spec says a step RETURNS them (R33) and
  reads `beep` back after the step (R202); a step here answers a state, so they ride in it. No instruction reads them.
  DESIGN CHOICE: notes/assumptions/2.md. -/
  lastStep : Option StepOutputs
  /-- The model's own: how many random bytes have been drawn, the argument of the free value `Config.randomByte` (R141).
  DESIGN CHOICE: notes/assumptions/3.md. -/
  draws : Nat
  /-- The model's own: the parameters FONT and KEY_PICK (R6). The spec says they are arguments and not state (R34); `step` and `exec`
  take none, so they ride in the state, as data that no step and no host operation changes. A claim for every state is a claim
  for every FONT and every KEY_PICK. DESIGN CHOICE: notes/assumptions/4.md, 5.md. -/
  params : Config.Params
deriving DecidableEq, Repr

/-- The state right after reset (R35, R220, R221). No byte of memory is listed: every one holds its reset contents. The redraw
flag, the keys and the latch have the values the spec decides in D19 and D7: DESIGN CHOICE, unsafe, log entry 14.
The parameters are at the spec's defaults (R6); `State.resetWith` is the reset under others. -/
def State.reset : State where
  v := Vector.replicate 16 0
  index := 0
  pc := 0x200
  sp := 0
  stack := Vector.replicate 16 0
  dt := 0
  st := 0
  fb := Vector.replicate 32 (Vector.replicate 64 false)
  redraw := false
  keys := Vector.replicate 16 false
  mem := []
  fault := none
  lastStep := none
  draws := 0
  params := defaultParams

end Sys2Proof.Machine
end

