-- ==== Sys2Proof/Machine/Memory.lean ====
section
/-! DEFINITION. Memory (spec 20_memory.md R60 to R68): what an unlisted byte reads as, the read and the write of one byte, runs of
bytes in ascending order (R65), the canonical form, and the two range checks (R66, R67). -/

namespace Sys2Proof.Machine

/-- What an unlisted address reads as: its contents after reset with the default FONT, which is at 0x000 to 0x04F, and 0 elsewhere (R35,
R220). Under another FONT the bytes that differ are listed (`resetMemory`). -/
def unlisted (a : Nat) : Byte := font.getD a 0

/-- `mem[a]` (R68). -/
def readByte : Memory → Nat → Byte
  | [], a => unlisted a
  | (b, w) :: m, a => if a = b then w else readByte m a

/-- `mem[a] <- v` (R68). Writing the reset contents unlists the address, so equal memories are equal lists. -/
def writeByte : Memory → Nat → Byte → Memory
  | [], a, v => if v = unlisted a then [] else [(a, v)]
  | (b, w) :: m, a, v =>
    if a < b then (if v = unlisted a then (b, w) :: m else (a, v) :: (b, w) :: m)
    else if a = b then (if v = unlisted a then m else (a, v) :: m)
    else (b, w) :: writeByte m a v

/-- `mem[a], mem[a+1], ...`: `n` bytes in ascending order (R65). -/
def readBytes (m : Memory) (a : Nat) : Nat → List Byte
  | 0 => []
  | n + 1 => readByte m a :: readBytes m (a + 1) n

/-- Store a run of bytes from `a` upward, in ascending order (R65). -/
def writeBytes (m : Memory) (a : Nat) : List Byte → Memory
  | [] => m
  | v :: vs => writeBytes (writeByte m a v) (a + 1) vs

/-- What reset leaves at an address under a FONT (R61, R220): the font at 0x000 to 0x04F and 0 elsewhere. -/
def resetByte (font : Config.Font) (a : Nat) : Byte := font.toList.getD a 0

/-- The memory reset leaves under a FONT: zeros, then the one-time font load (R220). Under the default FONT nothing is listed. -/
def resetMemory (font : Config.Font) : Memory := writeBytes [] 0 font.toList

/-- The canonical form from address `lo` on: strictly rising addresses below 0x1000, no entry equal to its reset contents. -/
def memoryWfFrom (lo : Nat) : Memory → Bool
  | [] => true
  | (a, v) :: m => decide (lo ≤ a) && decide (a < Config.memSize) && decide (v ≠ unlisted a) && memoryWfFrom (a + 1) m

/-- The canonical form of memory. -/
def Memory.wf (m : Memory) : Bool := memoryWfFrom 0 m

/-- The check of a data read of `n` bytes from `a` (R66), every byte before any is read (R65): the fault, if one is above 0xFFF.
No byte at all is no fault (R164). DESIGN CHOICE (the spec's D8, D26), safe: log entry 9. -/
def readCheck (a n : Nat) : Option Fault :=
  if 0 < n ∧ 0xFFF < a + (n - 1) then some .addressOutOfRange else none

/-- The check of a data store of `n` bytes from `a` (R67), every byte before any is stored (R65): above 0xFFF, then below 0x200
(both cannot hold for the at most 16 bytes of an instruction). DESIGN CHOICE (the spec's D8, D9, D26), safe: log entry 9. -/
def writeCheck (a n : Nat) : Option Fault :=
  if 0 < n ∧ 0xFFF < a + (n - 1) then some .addressOutOfRange
  else if 0 < n ∧ a < Config.progBase then some .protectedWrite
  else none

end Sys2Proof.Machine
end

