-- ==== Sys2Proof/Machine/Ops.lean ====
section
/-! DEFINITION. The named operations over the state that every meaning is written with: registers, stack, framebuffer, program
counter, and the three ways a step ends (spec 40_instruction_cycle.md R105 to R108): `complete`, `awaitInput`, `raise`. -/

namespace Sys2Proof.Machine

/-- What a step answers. -/
abbrev Result := Host.Outcome State Fault Refusal

/-! ### Registers and program counter -/

/-- `V[r]` (R20). -/
def getV (s : State) (r : Reg) : Byte := s.v[r]

/-- `V[r] <- b` (R20): all 16 can be written, none is hardwired. -/
def setV (s : State) (r : Reg) (b : Byte) : State := { s with v := s.v.set r b }

/-- `V[15]`, the flag register (R21). -/
def flagReg : Reg := 15

/-- `pc <- pc + n` (R105): 2 to the next instruction, 4 to skip one. The sum fits 16 bits in every
reachable state (log entry 13). -/
def advance (s : State) (n : Word) : State := { s with pc := s.pc + n }

/-! ### Call stack (R24): push stores then increments, pop decrements then reads -/

/-- Push a return address; `none` when 16 are held. -/
def push (s : State) (w : Word) : Option State :=
  if h : s.sp.val < 16 then
    some { s with stack := s.stack.set s.sp.val w, sp := ⟨s.sp.val + 1, Nat.succ_lt_succ h⟩ }
  else none

/-- Pop a return address; `none` when none is held. The popped slot keeps its value (R24). -/
def pop (s : State) : Option (Word × State) :=
  match s.sp with
  | ⟨0, _⟩ => none
  | ⟨k + 1, h⟩ =>
    some (s.stack[k]'(Nat.lt_of_succ_lt_succ h), { s with sp := ⟨k, Nat.lt_of_succ_lt h⟩ })

/-! ### Framebuffer (R27) -/

/-- A row number reduced modulo 32 (R162). -/
def rowOf (r : Nat) : Fin 32 := ⟨r % 32, Nat.mod_lt r (by decide)⟩

/-- A column number reduced modulo 64 (R162). -/
def colOf (c : Nat) : Fin 64 := ⟨c % 64, Nat.mod_lt c (by decide)⟩

/-- `fb[r][c]`. -/
def pixel (fb : Frame) (r : Fin 32) (c : Fin 64) : Bool := (fb[r])[c]

/-- `fb[r][c] <- fb[r][c] ^ 1`. -/
def flipPixel (fb : Frame) (r : Fin 32) (c : Fin 64) : Frame := fb.set r ((fb[r]).set c (!pixel fb r c))

/-- Every pixel off (R160). -/
def blankFrame : Frame := Vector.replicate 32 (Vector.replicate 64 false)

/-! ### The timers (R106, R192) -/

/-- One tick of a timer: it counts down and stays at zero (R192). -/
def countDown (t : Byte) : Byte := if t = 0 then 0 else t - 1

/-- Phase 4 of a step: both timers count down (R106). -/
def tick (s : State) : State := { s with dt := countDown s.dt, st := countDown s.st }

/-- The beep of a tick: the sound timer stands at 1 before it counts down (R106). -/
def beepOf (s : State) : Bool := decide (s.st = 1)

/-! ### The three ways a step ends (R108) -/

/-- The instruction completed with the state `s`: the tick follows and the step reports `Done` (R100, R106, R108). `unknown` is 1
only for an unmatched word (R33). -/
def completeWith (unknown : Bool) (s : State) : Result :=
  .next { tick s with lastStep := some ⟨.done, beepOf s, unknown⟩ }

/-- An instruction of the table completed with the state `s`. -/
def complete (s : State) : Result := completeWith false s

/-- The wait step of `Fx0A` (R108, R173): no state changes and nothing ticks; the step reports
`AwaitingInput`. DESIGN CHOICE (the spec's D11), unsafe: log entry 11. -/
def awaitInput (s : State) : Result :=
  .next { s with lastStep := some ⟨.awaitingInput, false, false⟩ }

/-- TAKING A FATAL FAULT (R184): the latch takes the kind; no pc update, no tick, no other change; the step reports the kind. There
is no vector, no saved register and no return but reset (R190). DESIGN CHOICE (the spec's D7), unsafe: log entry 1. -/
def raise (kind : Fault) (s : State) : Result :=
  .next { s with fault := some kind, lastStep := some ⟨.fault kind, false, false⟩ }

/-- A step of the halted engine (R101): nothing changes, and the step reports the latched kind again. -/
def reportHalted (kind : Fault) (s : State) : Result :=
  .next { s with lastStep := some ⟨.fault kind, false, false⟩ }

/-- Run `k` when a check found no fault, else take the fault (R184, R188): every check comes before the first write. -/
def unlessFault (check : Option Fault) (s : State) (k : Result) : Result :=
  match check with
  | some kind => raise kind s
  | none => k

end Sys2Proof.Machine
end

