-- ==== Sys2Proof/Machine/Operands.lean ====
section
/-! DEFINITION. Operand forms: what an instruction captures before its first write (spec 40_instruction_cycle.md R104). Immediates
are zero-extended (30_encoding.md R83); addresses are `I + k` on unbounded integers (20_memory.md R65). -/

namespace Sys2Proof.Machine

/-- `zext_16(nnn)`: an absolute address (R83). -/
def zextNnn (nnn : BitVec 12) : Word := nnn.setWidth 16

/-- `zext_16(b)`. -/
def zextByte (b : Byte) : Word := b.setWidth 16

/-- The base address of a data access: `I` as an unbounded integer (R65). -/
def baseAddr (s : State) : Nat := s.index.toNat

/-- How many registers `V[0..x]` names (R154, R155). -/
def regCount (x : Reg) : Nat := x.val + 1

/-- `V[0], ..., V[x]` in ascending order (R154). -/
def firstRegs (s : State) (x : Reg) : List Byte := s.v.toList.take (regCount x)

/-- `V[k] <- bytes[0]`, `V[k+1] <- bytes[1]`, ... in ascending order (R155). -/
def setRegsFrom (v : Vector Byte 16) : Nat → List Byte → Vector Byte 16
  | _, [] => v
  | k, b :: bytes => setRegsFrom (v.setIfInBounds k b) (k + 1) bytes

/-- `V[k] <- bytes[k]` for the bytes given, from `V[0]` up; the registers above keep their values (R155). -/
def setFirstRegs (s : State) (bytes : List Byte) : State := { s with v := setRegsFrom s.v 0 bytes }

/-- The bytes a `DRW` reads and draws, or an `LDM` loads: `mem[I], mem[I+1], ...` (R65). -/
def dataBytes (s : State) (n : Nat) : List Byte := readBytes s.mem (baseAddr s) n

/-- The three decimal digits of a byte, hundreds first, one a byte (R153). -/
def decimalDigits (a : Byte) : List Byte :=
  [BitVec.ofNat 8 (a.toNat / 100), BitVec.ofNat 8 (a.toNat / 10 % 10), BitVec.ofNat 8 (a.toNat % 10)]

/-- `key[k]` (R29). -/
def keyDown (s : State) (k : Key) : Bool := s.keys[k]

/-- `P`, the pressed keys in ascending order (R173). -/
def pressedKeys (s : State) : List Key := (List.finRange 16).filter (keyDown s)

/-- `KEY_PICK(P)` (R6, R173) by its table, for `P` in ascending order: the key listed for `P` where that is a member of `P`, else the
default, the lowest of `P`; `none` where no key is pressed. The default is the spec's D12: DESIGN CHOICE, log entry 4. -/
def keyPick (table : Config.KeyPick) : List Key → Option Key
  | [] => none
  | k :: rest =>
    match table.lookup (k :: rest) with
    | some j => some (if j ∈ k :: rest then j else k)
    | none => some k

/-- A key index taken from a register: `none` above 15 (R170). -/
def keyOf (a : Byte) : Option Key := if h : a.toNat < 16 then some ⟨a.toNat, h⟩ else none

/-- The address after the instruction, or after the one it skips (R105): skipping moves `pc` by 4, not skipping by 2. -/
def skipWhen (c : Bool) (s : State) : State := advance s (if c then 4 else 2)

end Sys2Proof.Machine
end

