-- ==== Sys2Proof/Machine/Flags.lean ====
section
/-! DEFINITION. Every value an instruction writes to `V[15]` as a flag (spec 10_state.md R21), and the write of a flag followed by a
result (40_instruction_cycle.md R110). -/

namespace Sys2Proof.Machine

/-- A flag as the byte 1 or 0. -/
def flagByte (b : Bool) : Byte := if b then 1 else 0

/-- Carry of `a + b`: the sum exceeds 255 (R136). -/
def carryFlag (a b : Byte) : Byte := flagByte (decide (255 < a.toNat + b.toNat))

/-- Not-borrow of `a - b`: `a >= b` (R137, R139, R142). -/
def notBorrowFlag (a b : Byte) : Byte := flagByte (decide (b.toNat ≤ a.toNat))

/-- Bit 0, the bit a right shift drops (R138). -/
def lowBitFlag (a : Byte) : Byte := flagByte (a.getLsbD 0)

/-- Bit 7, the bit a left shift drops (R140). -/
def highBitFlag (a : Byte) : Byte := flagByte (a.getLsbD 7)

/-- The sum `I + V[x]` passes the last memory address (R151). -/
def indexFlag (i : Word) (a : Byte) : Byte := flagByte (decide (0xFFF < i.toNat + a.toNat))

/-- Write the flag to `V[15]`, then the result to `V[x]`: with `x = 15` the result survives (R110). DESIGN CHOICE (the
spec's D3), unsafe: log entry 8. -/
def setFlagThenResult (s : State) (flag : Byte) (x : Reg) (result : Byte) : State :=
  setV (setV s flagReg flag) x result

end Sys2Proof.Machine
end

