-- ==== Sys2Proof/Machine/Alu.lean ====
section
/-! DEFINITION. Register loads, ALU operations and the random byte (spec 43_alu.md R130 to R142). Arithmetic on bytes wraps modulo
256 (R142). -/

namespace Sys2Proof.Machine

/-- The common shape of `V[x] <- result; pc <- pc + 2`. -/
def writeResult (s : State) (x : Reg) (result : Byte) : Result := complete (advance (setV s x result) 2)

/-- The common shape of `V[15] <- flag; V[x] <- result; pc <- pc + 2` (R110). -/
def writeFlagAndResult (s : State) (flag : Byte) (x : Reg) (result : Byte) : Result :=
  complete (advance (setFlagThenResult s flag x result) 2)

/-- `6xkk` LDK (R130). -/
def execLdk (x : Reg) (kk : Byte) (s : State) : Result := writeResult s x kk

/-- `7xkk` ADDK (R131): no flag. -/
def execAddk (x : Reg) (kk : Byte) (s : State) : Result := writeResult s x (getV s x + kk)

/-- `8xy0` MOV (R132). -/
def execMov (x y : Reg) (s : State) : Result := writeResult s x (getV s y)

/-- `8xy1` OR (R133). -/
def execOr (x y : Reg) (s : State) : Result := writeResult s x (getV s x ||| getV s y)

/-- `8xy2` AND (R134). -/
def execAnd (x y : Reg) (s : State) : Result := writeResult s x (getV s x &&& getV s y)

/-- `8xy3` XOR (R135). -/
def execXor (x y : Reg) (s : State) : Result := writeResult s x (getV s x ^^^ getV s y)

/-- `8xy4` ADD (R136). -/
def execAdd (x y : Reg) (s : State) : Result :=
  writeFlagAndResult s (carryFlag (getV s x) (getV s y)) x (getV s x + getV s y)

/-- `8xy5` SUB (R137). -/
def execSub (x y : Reg) (s : State) : Result :=
  writeFlagAndResult s (notBorrowFlag (getV s x) (getV s y)) x (getV s x - getV s y)

/-- `8xy6` SHR (R138): `y` is ignored. -/
def execShr (x _y : Reg) (s : State) : Result :=
  writeFlagAndResult s (lowBitFlag (getV s x)) x (getV s x >>> 1)

/-- `8xy7` SUBN (R139). -/
def execSubn (x y : Reg) (s : State) : Result :=
  writeFlagAndResult s (notBorrowFlag (getV s y) (getV s x)) x (getV s y - getV s x)

/-- `8xyE` SHL (R140): `y` is ignored. -/
def execShl (x _y : Reg) (s : State) : Result :=
  writeFlagAndResult s (highBitFlag (getV s x)) x (getV s x <<< 1)

/-- `Cxkk` RND (R141): a fresh free byte, masked with `kk` (log entry 3). -/
def execRnd (x : Reg) (kk : Byte) (s : State) : Result :=
  writeResult { s with draws := s.draws + 1 } x (Config.randomByte s.draws &&& kk)

end Sys2Proof.Machine
end

