-- ==== Sys2Proof/Machine/Display.lean ====
section
/-! DEFINITION. Framebuffer instructions and the XOR-blit unit with its collision flag (spec 45_display.md R160 to R164). -/

namespace Sys2Proof.Machine

/-- `00E0` CLS (R160). -/
def execCls (s : State) : Result := complete (advance { s with fb := blankFrame, redraw := true } 2)

/-- The blit unit while it works: the framebuffer and the collision so far. -/
structure Blit where
  fb : Frame
  hit : Bool
deriving DecidableEq, Repr

/-- One sprite bit at column `c` of a sprite row drawn at (`a`, row `r`): bit `7 - c` of the byte is column `c` (R162); a 1 flips the
pixel and collides when the pixel was on (R161, R163). The bit order is PRESUMED (the spec's D15), unsafe: log entry 16. -/
def blitBit (row : Byte) (a r : Nat) (u : Blit) (c : Nat) : Blit :=
  if row.getLsbD (7 - c) then
    ⟨flipPixel u.fb (rowOf r) (colOf (a + c)), u.hit || pixel u.fb (rowOf r) (colOf (a + c))⟩
  else u

/-- One sprite row: its eight columns, left to right (R162). -/
def blitRow (row : Byte) (a r : Nat) (u : Blit) : Blit := (List.range 8).foldl (blitBit row a r) u

/-- The sprite's rows, top to bottom, from row `r` on. -/
def blitRows (a : Nat) : Nat → List Byte → Blit → Blit
  | _, [], u => u
  | r, row :: rows, u => blitRows a (r + 1) rows (blitRow row a r u)

/-- The sprite `rows` drawn at column `a`, row `b`; no collision to begin with (R161). -/
def blit (fb : Frame) (a b : Byte) (rows : List Byte) : Blit := blitRows a.toNat b.toNat rows ⟨fb, false⟩

/-- `Dxyn` DRW (R161): all reads first, the coordinates captured before the flag is written (R104). -/
def execDrw (x y : Reg) (n : BitVec 4) (s : State) : Result :=
  unlessFault (readCheck (baseAddr s) n.toNat) s
    (complete (advance
      { setV s flagReg (flagByte (blit s.fb (getV s x) (getV s y) (dataBytes s n.toNat)).hit) with
        fb := (blit s.fb (getV s x) (getV s y) (dataBytes s n.toNat)).fb, redraw := true } 2))

end Sys2Proof.Machine
end

