-- ==== Sys2Proof/Machine/Flow.lean ====
section
/-! DEFINITION. Jumps, calls and returns (spec 41_flow.md R120 to R123). -/

namespace Sys2Proof.Machine

/-- `00EE` RET (R120). -/
def execRet (s : State) : Result :=
  match pop s with
  | none => raise .stackUnderflow s
  | some (w, s') => complete { s' with pc := w + 2 }

/-- `1nnn` JP (R121). -/
def execJp (nnn : BitVec 12) (s : State) : Result := complete { s with pc := zextNnn nnn }

/-- `2nnn` CALL (R122): the value pushed is the address of the call itself. -/
def execCall (nnn : BitVec 12) (s : State) : Result :=
  match push s s.pc with
  | none => raise .stackOverflow s
  | some s' => complete { s' with pc := zextNnn nnn }

/-- `Bnnn` JPV0 (R123): the sum is not masked. -/
def execJpv0 (nnn : BitVec 12) (s : State) : Result :=
  complete { s with pc := zextNnn nnn + zextByte (getV s 0) }

end Sys2Proof.Machine
end

