-- ==== Sys2Proof/Machine/IndexMemory.lean ====
section
/-! DEFINITION. Index register and memory instructions (spec 44_index_memory.md R150 to R155). None of the memory instructions
changes `I`. -/

namespace Sys2Proof.Machine

/-- `Annn` LDI (R150). -/
def execLdi (nnn : BitVec 12) (s : State) : Result := complete (advance { s with index := zextNnn nnn } 2)

/-- `Fx1E` ADDI (R151): the flag, then `I` modulo 65536. -/
def execAddi (x : Reg) (s : State) : Result :=
  complete (advance
    { setV s flagReg (indexFlag s.index (getV s x)) with index := s.index + zextByte (getV s x) } 2)

/-- `Fx29` LDF (R152): the whole byte times 5. -/
def execLdf (x : Reg) (s : State) : Result :=
  complete (advance { s with index := zextByte (getV s x) * 5 } 2)

/-- Store a run of bytes at `I`, all or nothing (R65, R67), then `pc <- pc + 2`. -/
def storeAtIndex (s : State) (bytes : List Byte) : Result :=
  unlessFault (writeCheck (baseAddr s) bytes.length) s
    (complete (advance { s with mem := writeBytes s.mem (baseAddr s) bytes } 2))

/-- `Fx33` BCD (R153). -/
def execBcd (x : Reg) (s : State) : Result := storeAtIndex s (decimalDigits (getV s x))

/-- `Fx55` STM (R154). -/
def execStm (x : Reg) (s : State) : Result := storeAtIndex s (firstRegs s x)

/-- `Fx65` LDM (R155): all reads first, then the registers. -/
def execLdm (x : Reg) (s : State) : Result :=
  unlessFault (readCheck (baseAddr s) (regCount x)) s
    (complete (advance (setFirstRegs s (dataBytes s (regCount x))) 2))

end Sys2Proof.Machine
end

