-- ==== Sys2Proof/Machine/KeysTimers.lean ====
section
/-! DEFINITION. Key and timer instructions (spec 46_keys_timers.md R170 to R175). -/

namespace Sys2Proof.Machine

/-- The common shape of the key skips (R170, R171): the key named by `V[x]`, a fault above 15
(DESIGN CHOICE, the spec's D13, safe: log entry 9), a skip when its level is `level`. -/
def skipOnKey (s : State) (x : Reg) (level : Bool) : Result :=
  match keyOf (getV s x) with
  | none => raise .keyIndexOutOfRange s
  | some k => complete (skipWhen (decide (keyDown s k = level)) s)

/-- `Ex9E` SKP (R170). -/
def execSkp (x : Reg) (s : State) : Result := skipOnKey s x true

/-- `ExA1` SKNP (R171). -/
def execSknp (x : Reg) (s : State) : Result := skipOnKey s x false

/-- `Fx07` GETDT (R172): the value before this step's tick. -/
def execGetdt (x : Reg) (s : State) : Result := complete (advance (setV s x s.dt) 2)

/-- `Fx0A` WAITK (R173): a wait step while no key is pressed, else the index of a pressed key. -/
def execWaitk (x : Reg) (s : State) : Result :=
  match keyPick s.params.keyPick (pressedKeys s) with
  | none => awaitInput s
  | some k => complete (advance (setV s x (BitVec.ofNat 8 k.val)) 2)

/-- `Fx15` SETDT (R174): the tick of the same step follows. -/
def execSetdt (x : Reg) (s : State) : Result := complete (advance { s with dt := getV s x } 2)

/-- `Fx18` SETST (R175): the tick of the same step follows. -/
def execSetst (x : Reg) (s : State) : Result := complete (advance { s with st := getV s x } 2)

end Sys2Proof.Machine
end

