-- ==== Sys2Proof/Machine/Skip.lean ====
section
/-! DEFINITION. Conditional skips on registers (spec 42_skip.md R125 to R128). -/

namespace Sys2Proof.Machine

/-- `3xkk` SEK (R125). -/
def execSek (x : Reg) (kk : Byte) (s : State) : Result := complete (skipWhen (decide (getV s x = kk)) s)

/-- `4xkk` SNEK (R126). -/
def execSnek (x : Reg) (kk : Byte) (s : State) : Result := complete (skipWhen (decide (getV s x ≠ kk)) s)

/-- `5xy0` SE (R127). -/
def execSe (x y : Reg) (s : State) : Result := complete (skipWhen (decide (getV s x = getV s y)) s)

/-- `9xy0` SNE (R128). -/
def execSne (x y : Reg) (s : State) : Result := complete (skipWhen (decide (getV s x ≠ getV s y)) s)

end Sys2Proof.Machine
end

