-- ==== Sys2Proof/Syntax.lean ====
section
/-! DEFINITION. The instructions of gate CORE: one constructor per row of spec/opcode_table.json, in the table's order (spec
30_encoding.md R85). Operand ranges are carried by the types (R81, R90): every term is a legal instruction. The unmatched
words are no row of the table and no constructor: see `Decoded.unknown` in Sys2Proof/Decode.lean. -/

namespace Sys2Proof

/-- The 34 instructions. `x`, `y` index general registers, `kk`, `nnn`, `n` are the literals of R81. -/
inductive Instr where
  /-- `00E0` -/
  | cls
  /-- `00EE` -/
  | ret
  /-- `1nnn` -/
  | jp (nnn : BitVec 12)
  /-- `2nnn` -/
  | call (nnn : BitVec 12)
  /-- `3xkk` -/
  | sek (x : Reg) (kk : Byte)
  /-- `4xkk` -/
  | snek (x : Reg) (kk : Byte)
  /-- `5xy0` -/
  | se (x y : Reg)
  /-- `6xkk` -/
  | ldk (x : Reg) (kk : Byte)
  /-- `7xkk` -/
  | addk (x : Reg) (kk : Byte)
  /-- `8xy0` -/
  | mov (x y : Reg)
  /-- `8xy1` -/
  | or (x y : Reg)
  /-- `8xy2` -/
  | and (x y : Reg)
  /-- `8xy3` -/
  | xor (x y : Reg)
  /-- `8xy4` -/
  | add (x y : Reg)
  /-- `8xy5` -/
  | sub (x y : Reg)
  /-- `8xy6`; `y` is encoded and ignored (R90) -/
  | shr (x y : Reg)
  /-- `8xy7` -/
  | subn (x y : Reg)
  /-- `8xyE`; `y` is encoded and ignored (R90) -/
  | shl (x y : Reg)
  /-- `9xy0` -/
  | sne (x y : Reg)
  /-- `Annn` -/
  | ldi (nnn : BitVec 12)
  /-- `Bnnn` -/
  | jpv0 (nnn : BitVec 12)
  /-- `Cxkk` -/
  | rnd (x : Reg) (kk : Byte)
  /-- `Dxyn` -/
  | drw (x y : Reg) (n : BitVec 4)
  /-- `Ex9E` -/
  | skp (x : Reg)
  /-- `ExA1` -/
  | sknp (x : Reg)
  /-- `Fx07` -/
  | getdt (x : Reg)
  /-- `Fx0A` -/
  | waitk (x : Reg)
  /-- `Fx15` -/
  | setdt (x : Reg)
  /-- `Fx18` -/
  | setst (x : Reg)
  /-- `Fx1E` -/
  | addi (x : Reg)
  /-- `Fx29` -/
  | ldf (x : Reg)
  /-- `Fx33` -/
  | bcd (x : Reg)
  /-- `Fx55` -/
  | stm (x : Reg)
  /-- `Fx65` -/
  | ldm (x : Reg)
deriving DecidableEq, Repr

end Sys2Proof
end

