-- ==== Sys2Proof/Decode.lean ====
section
/-! DEFINITION. Decoding and encoding (spec 30_encoding.md R80 to R90, 20_memory.md R63): the fields of a word, the decode
procedure of R84, the opcode map of R85 as a table of masks, the encoder written from the formats of R82. -/

namespace Sys2Proof

/-! ### Fields of an instruction word (R81) -/

/-- `fam = op[15:12]`. -/
def famOf (op : Word) : BitVec 4 := op.extractLsb' 12 4

/-- The field `op[11:8]`. -/
def nibble2 (op : Word) : BitVec 4 := op.extractLsb' 8 4

/-- The field `op[7:4]`. -/
def nibble1 (op : Word) : BitVec 4 := op.extractLsb' 4 4

/-- `n = op[3:0]`. -/
def nOf (op : Word) : BitVec 4 := op.extractLsb' 0 4

/-- `kk = op[7:0]`. -/
def kkOf (op : Word) : Byte := op.extractLsb' 0 8

/-- `nnn = op[11:0]`. -/
def nnnOf (op : Word) : BitVec 12 := op.extractLsb' 0 12

/-- A 4-bit field as a register index. -/
def regOf (b : BitVec 4) : Reg := b.toFin

/-- `x`: the register index in `op[11:8]`. -/
def xOf (op : Word) : Reg := regOf (nibble2 op)

/-- `y`: the register index in `op[7:4]`. -/
def yOf (op : Word) : Reg := regOf (nibble1 op)

/-! ### The decode procedure (R84) -/

/-- The six kinds of unmatched words, the rows of the table of R86. -/
inductive Unmatched where
  /-- `0nnn` other than `00E0`, `00EE` (R87) -/
  | family0
  /-- `5xyn` with `n` not 0 (R88) -/
  | family5
  /-- `8xyn` with `n` no selector -/
  | family8
  /-- `9xyn` with `n` not 0 (R88) -/
  | family9
  /-- `Exkk` with `kk` no selector -/
  | familyE
  /-- `Fxkk` with `kk` no selector -/
  | familyF
deriving DecidableEq, Repr

/-- What a word decodes to: an instruction of the table, or `UNKNOWN` with the row of R86 that names the word (R103). -/
inductive Decoded where
  | instr (i : Instr)
  | unknown (why : Unmatched)
deriving DecidableEq, Repr

/-- Family 8: the low nibble selects (R84). -/
def decodeFamily8 (x y : Reg) (n : BitVec 4) : Decoded :=
  match n with
  | 0x0 => .instr (.mov x y)
  | 0x1 => .instr (.or x y)
  | 0x2 => .instr (.and x y)
  | 0x3 => .instr (.xor x y)
  | 0x4 => .instr (.add x y)
  | 0x5 => .instr (.sub x y)
  | 0x6 => .instr (.shr x y)
  | 0x7 => .instr (.subn x y)
  | 0xE => .instr (.shl x y)
  | _ => .unknown .family8

/-- Family E: the low byte selects (R84). -/
def decodeFamilyE (x : Reg) (kk : Byte) : Decoded :=
  match kk with
  | 0x9E => .instr (.skp x)
  | 0xA1 => .instr (.sknp x)
  | _ => .unknown .familyE

/-- Family F: the low byte selects (R84). -/
def decodeFamilyF (x : Reg) (kk : Byte) : Decoded :=
  match kk with
  | 0x07 => .instr (.getdt x)
  | 0x0A => .instr (.waitk x)
  | 0x15 => .instr (.setdt x)
  | 0x18 => .instr (.setst x)
  | 0x1E => .instr (.addi x)
  | 0x29 => .instr (.ldf x)
  | 0x33 => .instr (.bcd x)
  | 0x55 => .instr (.stm x)
  | 0x65 => .instr (.ldm x)
  | _ => .unknown .familyF

/-- `decode(op)` of R84. Total: every word is one of the 34 instructions or `UNKNOWN`. -/
def decodeWord (op : Word) : Decoded :=
  match famOf op with
  | 0x0 =>
    if op = 0x00E0 then .instr .cls
    else if op = 0x00EE then .instr .ret
    else .unknown .family0
  | 0x1 => .instr (.jp (nnnOf op))
  | 0x2 => .instr (.call (nnnOf op))
  | 0x3 => .instr (.sek (xOf op) (kkOf op))
  | 0x4 => .instr (.snek (xOf op) (kkOf op))
  | 0x5 => if nOf op = 0 then .instr (.se (xOf op) (yOf op)) else .unknown .family5
  | 0x6 => .instr (.ldk (xOf op) (kkOf op))
  | 0x7 => .instr (.addk (xOf op) (kkOf op))
  | 0x8 => decodeFamily8 (xOf op) (yOf op) (nOf op)
  | 0x9 => if nOf op = 0 then .instr (.sne (xOf op) (yOf op)) else .unknown .family9
  | 0xA => .instr (.ldi (nnnOf op))
  | 0xB => .instr (.jpv0 (nnnOf op))
  | 0xC => .instr (.rnd (xOf op) (kkOf op))
  | 0xD => .instr (.drw (xOf op) (yOf op) (nOf op))
  | 0xE => decodeFamilyE (xOf op) (kkOf op)
  | _ => decodeFamilyF (xOf op) (kkOf op)

/-! ### Bytes (R63): the first byte is the high one -/

/-- `{hi, lo}`: the word held in two consecutive bytes, high byte first. -/
def wordOfBytes (hi lo : Byte) : Word := hi ++ lo

/-- The high byte of a word, the one at the lower address. -/
def hiByte (op : Word) : Byte := op.extractLsb' 8 8

/-- The low byte of a word. -/
def loByte (op : Word) : Byte := op.extractLsb' 0 8

/-- The decoder on the two bytes of an instruction as memory holds them. -/
def decodeBytes (hi lo : Byte) : Decoded := decodeWord (wordOfBytes hi lo)

/-! ### The opcode map (R85), as the table writes it -/

/-- One row of the opcode map: a word belongs to it when `op &&& mask = bits`. -/
structure OpcodeRow where
  mask : Word
  bits : Word
deriving DecidableEq, Repr

/-- The row of R85 that an instruction belongs to: the table's columns `mask` and `match`. -/
def Instr.row : Instr → OpcodeRow
  | .cls => ⟨0xFFFF, 0x00E0⟩
  | .ret => ⟨0xFFFF, 0x00EE⟩
  | .jp _ => ⟨0xF000, 0x1000⟩
  | .call _ => ⟨0xF000, 0x2000⟩
  | .sek _ _ => ⟨0xF000, 0x3000⟩
  | .snek _ _ => ⟨0xF000, 0x4000⟩
  | .se _ _ => ⟨0xF00F, 0x5000⟩
  | .ldk _ _ => ⟨0xF000, 0x6000⟩
  | .addk _ _ => ⟨0xF000, 0x7000⟩
  | .mov _ _ => ⟨0xF00F, 0x8000⟩
  | .or _ _ => ⟨0xF00F, 0x8001⟩
  | .and _ _ => ⟨0xF00F, 0x8002⟩
  | .xor _ _ => ⟨0xF00F, 0x8003⟩
  | .add _ _ => ⟨0xF00F, 0x8004⟩
  | .sub _ _ => ⟨0xF00F, 0x8005⟩
  | .shr _ _ => ⟨0xF00F, 0x8006⟩
  | .subn _ _ => ⟨0xF00F, 0x8007⟩
  | .shl _ _ => ⟨0xF00F, 0x800E⟩
  | .sne _ _ => ⟨0xF00F, 0x9000⟩
  | .ldi _ => ⟨0xF000, 0xA000⟩
  | .jpv0 _ => ⟨0xF000, 0xB000⟩
  | .rnd _ _ => ⟨0xF000, 0xC000⟩
  | .drw _ _ _ => ⟨0xF000, 0xD000⟩
  | .skp _ => ⟨0xF0FF, 0xE09E⟩
  | .sknp _ => ⟨0xF0FF, 0xE0A1⟩
  | .getdt _ => ⟨0xF0FF, 0xF007⟩
  | .waitk _ => ⟨0xF0FF, 0xF00A⟩
  | .setdt _ => ⟨0xF0FF, 0xF015⟩
  | .setst _ => ⟨0xF0FF, 0xF018⟩
  | .addi _ => ⟨0xF0FF, 0xF01E⟩
  | .ldf _ => ⟨0xF0FF, 0xF029⟩
  | .bcd _ => ⟨0xF0FF, 0xF033⟩
  | .stm _ => ⟨0xF0FF, 0xF055⟩
  | .ldm _ => ⟨0xF0FF, 0xF065⟩

/-- A word matches a row of the map (R85). -/
abbrev OpcodeRow.Matches (r : OpcodeRow) (op : Word) : Prop := op &&& r.mask = r.bits

/-- The 34 rows of the map, in the table's order (R85). -/
def opcodeMap : List OpcodeRow :=
  ([.cls, .ret, .jp 0, .call 0, .sek 0 0, .snek 0 0, .se 0 0, .ldk 0 0, .addk 0 0, .mov 0 0, .or 0 0, .and 0 0,
    .xor 0 0, .add 0 0, .sub 0 0, .shr 0 0, .subn 0 0] ++
   [.shl 0 0, .sne 0 0, .ldi 0, .jpv0 0, .rnd 0 0, .drw 0 0 0, .skp 0, .sknp 0, .getdt 0, .waitk 0, .setdt 0,
    .setst 0, .addi 0, .ldf 0, .bcd 0, .stm 0, .ldm 0] : List Instr).map Instr.row

/-! ### The encoder (R81, R82): one packing per format -/

/-- A register index as a 4-bit field. -/
def regBits (r : Reg) : BitVec 4 := BitVec.ofFin r

/-- Formats `XYS` and `XYN`: `fam`, `x`, `y`, `n`. -/
def packXYN (fam : BitVec 4) (x y : Reg) (n : BitVec 4) : Word := fam ++ regBits x ++ regBits y ++ n

/-- Formats `XKK` and `XSS`: `fam`, `x`, `kk`. -/
def packXKK (fam : BitVec 4) (x : Reg) (kk : Byte) : Word := fam ++ regBits x ++ kk

/-- Format `NNN`: `fam`, `nnn`. -/
def packNNN (fam : BitVec 4) (nnn : BitVec 12) : Word := fam ++ nnn

/-- The word of an instruction, from the patterns of R85. -/
def encode : Instr → Word
  | .cls => 0x00E0
  | .ret => 0x00EE
  | .jp nnn => packNNN 0x1 nnn
  | .call nnn => packNNN 0x2 nnn
  | .sek x kk => packXKK 0x3 x kk
  | .snek x kk => packXKK 0x4 x kk
  | .se x y => packXYN 0x5 x y 0x0
  | .ldk x kk => packXKK 0x6 x kk
  | .addk x kk => packXKK 0x7 x kk
  | .mov x y => packXYN 0x8 x y 0x0
  | .or x y => packXYN 0x8 x y 0x1
  | .and x y => packXYN 0x8 x y 0x2
  | .xor x y => packXYN 0x8 x y 0x3
  | .add x y => packXYN 0x8 x y 0x4
  | .sub x y => packXYN 0x8 x y 0x5
  | .shr x y => packXYN 0x8 x y 0x6
  | .subn x y => packXYN 0x8 x y 0x7
  | .shl x y => packXYN 0x8 x y 0xE
  | .sne x y => packXYN 0x9 x y 0x0
  | .ldi nnn => packNNN 0xA nnn
  | .jpv0 nnn => packNNN 0xB nnn
  | .rnd x kk => packXKK 0xC x kk
  | .drw x y n => packXYN 0xD x y n
  | .skp x => packXKK 0xE x 0x9E
  | .sknp x => packXKK 0xE x 0xA1
  | .getdt x => packXKK 0xF x 0x07
  | .waitk x => packXKK 0xF x 0x0A
  | .setdt x => packXKK 0xF x 0x15
  | .setst x => packXKK 0xF x 0x18
  | .addi x => packXKK 0xF x 0x1E
  | .ldf x => packXKK 0xF x 0x29
  | .bcd x => packXKK 0xF x 0x33
  | .stm x => packXKK 0xF x 0x55
  | .ldm x => packXKK 0xF x 0x65

/-! ### The table's words -/

/-- The word whose bits are `w`, of which the table gives the low `nbits` (at most 16): the bits above them are 0. -/
def tableWord (nbits w : Nat) : Word := BitVec.ofNat 16 (w % 2 ^ nbits)

/-- The instruction the decoder reads from a word numbered as spec/opcode_table.json numbers it (bit 0 the least significant
bit of the one word), laid out high byte first and given to the decoder as bytes; `none` where the word is `UNKNOWN`. -/
def decodeTableWord (nbits w : Nat) : Option Instr :=
  match decodeBytes (hiByte (tableWord nbits w)) (loByte (tableWord nbits w)) with
  | .instr i => some i
  | .unknown _ => none

end Sys2Proof
end

