-- ==== Sys2Proof/Machine/Fetch.lean ====
section
/-! DEFINITION. The fetch (spec 40_instruction_cycle.md R102, 20_memory.md R63), the pseudo-instruction UNKNOWN (R107), and the
placing of an instruction where the fetch finds it. -/

namespace Sys2Proof.Machine

/-- Phase 1: the two bytes at `pc` and `pc + 1`, high byte first; `none` when `pc + 1 > 0xFFF`, and then nothing is read
(R102). An odd `pc` is legal: DESIGN CHOICE (the spec's D10), unsafe: log entry 10. -/
def fetch (s : State) : Option Word :=
  if 0xFFF < s.pc.toNat + 1 then none
  else some (wordOfBytes (readByte s.mem s.pc.toNat) (readByte s.mem (s.pc.toNat + 1)))

/-- Every unmatched word (R107): it signals `unknown`, advances `pc` by 2, and the timers tick. DESIGN CHOICE (the
spec's D6), unsafe: log entry 12. -/
def execUnknown (s : State) : Result := completeWith true (advance s 2)

/-- Place a word where the next fetch reads it: its high byte at `pc`, its low byte at `pc + 1`. -/
def placeWord (s : State) (op : Word) : State :=
  { s with mem := writeBytes s.mem s.pc.toNat [hiByte op, loByte op] }

end Sys2Proof.Machine
end

