-- ==== Sys2Proof/Machine/Step.lean ====
section
/-! DEFINITION. One call of `step()` (spec 40_instruction_cycle.md R100): halted check, fetch, decode, execute. The tick of phase 4
is inside `Machine.completeWith`, with which every completed instruction ends. -/

namespace Sys2Proof.Machine

/-- Phases 2 and 3: run the word fetched (R103, R107). -/
def runWord (op : Word) (s : State) : Host.Outcome State Fault Refusal :=
  match decodeWord op with
  | .instr i => exec i s
  | .unknown _ => execUnknown s

/-- One step (R100, R101, R102). Every outcome is a next state. -/
def step (s : State) : Host.Outcome State Fault Refusal :=
  match s.fault with
  | some kind => reportHalted kind s
  | none =>
    match fetch s with
    | none => raise .addressOutOfRange s
    | some op => runWord op s

/-- `s` with the table's word stored at `pc`, high byte first, so that the next step fetches and runs it (`s` not halted and `pc` at
most 0xFFE, as after reset). It stands for the host's load of a program (R223, log entry 6). -/
def State.withFetchWord (s : State) (nbits w : Nat) : State := placeWord s (tableWord nbits w)

end Sys2Proof.Machine
end

