-- ==== Sys2Proof/WellFormed.lean ====
section
/-! DEFINITION. What must be checked of what enters the machine. An instruction needs no check: `Instr` carries every operand
range in its types, and every operand value is legal (spec 30_encoding.md R90). What the host hands over does: a program image
(spec 70_reset_and_hazards.md R224) and a key index (spec 60_exceptions.md R201). -/

namespace Sys2Proof

/-- A program image is raw bytes (R226). -/
abbrev Image := List Byte

/-- An image fits when it has at most `MAX_IMAGE` bytes (R5, R224). -/
def Image.wellFormed (bytes : Image) : Bool := decide (bytes.length ≤ Config.maxImage)

/-- The key index a host may name is 0 to 15 (R201). -/
def keyIndexWellFormed (index : Nat) : Bool := decide (index < 16)

end Sys2Proof
end

