-- ==== Sys2Proof/Machine/Boundary.lean ====
section
/-! DEFINITION. The eight boundary operations (spec 60_exceptions.md R196), each acting between steps (40_instruction_cycle.md
R109). Only `step` is the machine's own; the others are the host's moves and its readings. -/

namespace Sys2Proof.Machine

/-- What an operation hands back to the host. -/
inductive HostValue where
  /-- nothing -/
  | unit
  /-- a boolean reading -/
  | flag (b : Bool)
  /-- the grid of `framebuffer()` -/
  | grid (fb : Frame)
  /-- `load_program` returned Ok -/
  | loaded
  /-- `load_program` returned `ImageTooLarge` -/
  | imageTooLarge
  /-- the outputs of `step()` -/
  | outputs (o : Option StepOutputs)
deriving DecidableEq, Repr

/-- The reply to an operation: the state after it and what it returns, or a refusal where the operation has no meaning. -/
inductive HostReply where
  | answered (s : State) (value : HostValue)
  | refused (r : Refusal)
deriving DecidableEq, Repr

/-- The state right after reset under given parameters (R6, R35, R220): FONT is what the font load copies. -/
def State.resetWith (p : Config.Params) : State := { State.reset with mem := resetMemory p.font, params := p }

/-- The reset of R220 on a running or halted engine: every piece of the spec's state is as in R35 whatever it was. The parameters stay,
and the count of random bytes drawn goes on, so that no draw of the free source is repeated (log entry 3). The outputs of the last
step are gone: a host that asks after the beep of a step made before the reset is told 0, 'before any step' (R202) being counted
from the reset. DESIGN CHOICE, unsafe: log entry 18. -/
def resetFrom (s : State) : State := { State.resetWith s.params with draws := s.draws }

/-- The bytes of an image stored from 0x200 upward (R224, R226): the host's store, which R67 does not check. -/
def loadImage (s : State) (bytes : Image) : State := { s with mem := writeBytes s.mem Config.progBase bytes }

/-- `load_program(bytes)` (R224): refused once a step has been made (R225); an image that is too large writes nothing. -/
def hostLoad (s : State) (bytes : Image) : HostReply :=
  if s.lastStep.isSome then .refused .loadAfterStep
  else if bytes.wellFormed then .answered (loadImage s bytes) .loaded
  else .answered s .imageTooLarge

/-- `step()` (R197), with the outputs it returns (R33). -/
def hostStep (s : State) : HostReply :=
  match step s with
  | .next t => .answered t (.outputs t.lastStep)
  | .fault _ => .answered s (.outputs s.lastStep)
  | .refused r => .refused r

/-- `framebuffer()` (R198). -/
def hostFramebuffer (s : State) : HostReply := .answered s (.grid s.fb)

/-- `redraw_pending()` (R199). -/
def hostRedrawPending (s : State) : HostReply := .answered s (.flag s.redraw)

/-- `clear_redraw_pending()` (R200). -/
def hostClearRedraw (s : State) : HostReply := .answered { s with redraw := false } .unit

/-- `set_key(index, pressed)` (R201): one latch bit; an index outside 0 to 15 is refused. -/
def hostSetKey (s : State) (index : Nat) (pressed : Bool) : HostReply :=
  if h : index < 16 then .answered { s with keys := s.keys.set index pressed } .unit
  else .refused .keyIndexOutsideLatch

/-- The beep output of the most recent step since reset; 0 before any step (R202; that steps count from reset: log entry 18). -/
def soundTimerFired (s : State) : Bool :=
  match s.lastStep with
  | some o => o.beep
  | none => false

/-- `sound_timer_fired()` (R202): reading does not clear it. -/
def hostSoundTimerFired (s : State) : HostReply := .answered s (.flag (soundTimerFired s))

/-- The eight operations (R196). `restart` is the spec's reset operation. -/
inductive HostCall where
  | restart
  | loadProgram (bytes : Image)
  | step
  | framebuffer
  | redrawPending
  | clearRedrawPending
  | setKey (index : Nat) (pressed : Bool)
  | soundTimerFired
deriving DecidableEq, Repr

/-- An operation on a machine that has been reset. -/
def hostCallOn (s : State) : HostCall → HostReply
  | .restart => .answered (resetFrom s) .unit
  | .loadProgram bytes => hostLoad s bytes
  | .step => hostStep s
  | .framebuffer => hostFramebuffer s
  | .redrawPending => hostRedrawPending s
  | .clearRedrawPending => hostClearRedraw s
  | .setKey index pressed => hostSetKey s index pressed
  | .soundTimerFired => hostSoundTimerFired s

/-- An operation on the hardware with parameters `p`, `none` standing for everything before the first reset, when only the reset has a
meaning (R222). After it the parameters are those the state carries. -/
def hostCall (p : Config.Params) (m : Option State) (c : HostCall) : HostReply :=
  match m, c with
  | some s, c => hostCallOn s c
  | none, .restart => .answered (State.resetWith p) .unit
  | none, _ => .refused .notYetReset

end Sys2Proof.Machine
end

