-- ==== Sys2Proof/Safety.lean ====
section
/-! DEFINITION. The terms claims use: when the engine is halted and when a run is safe (spec 60_exceptions.md R184), the invariant
of the reachable states (10_state.md R36), and the vocabulary of frames: what an instruction leaves as it was. -/

namespace Sys2Proof.Machine

/-- The engine is halted: the fault latch is set (R31, R184). -/
def State.halted (s : State) : Bool := s.fault.isSome

/-- A run of `k` steps from `s` is safe when after none of them the engine is halted (R184: a claim that a program runs correctly
includes that no step returns a fault). -/
def safeRun : Nat → State → Bool
  | 0, s => !s.halted
  | k + 1, s =>
    !s.halted &&
      match step s with
      | .next t => safeRun k t
      | _ => false

/-- The reachable ranges of R36 that the types do not carry: memory in its canonical form, everything below 0x200 as reset left it
under the FONT of the machine, `pc` at most 0x10FE, every live return address at most 0xFFE. -/
structure State.Inv (s : State) : Prop where
  memWf : Memory.wf s.mem = true
  low : ∀ a, a < 0x200 → readByte s.mem a = resetByte s.params.font a
  pcBound : s.pc.toNat ≤ 0x10FE
  stackBound : ∀ k : Fin 16, k.val < s.sp.val → (s.stack[k]).toNat ≤ 0xFFE

/-! ### Frames -/

/-- Every general register as before. -/
def SameRegs (s t : State) : Prop := ∀ r : Reg, getV t r = getV s r

/-- Every general register but `x` as before. -/
def SameRegsBut (x : Reg) (s t : State) : Prop := ∀ r : Reg, r ≠ x → getV t r = getV s r

/-- Every byte of memory reads as before. -/
def SameMemory (s t : State) : Prop := ∀ a : Nat, readByte t.mem a = readByte s.mem a

/-- The call stack as before: the pointer and all sixteen slots. -/
def SameStack (s t : State) : Prop := t.sp = s.sp ∧ ∀ k : Fin 16, t.stack[k] = s.stack[k]

/-- Every pixel and the redraw flag as before. -/
def SameScreen (s t : State) : Prop := (∀ r c, pixel t.fb r c = pixel s.fb r c) ∧ t.redraw = s.redraw

/-- What no instruction writes: the key latch (R29), and, where no fault is raised, the fault latch (R31). -/
def SameLatches (s t : State) : Prop := (∀ k, keyDown t k = keyDown s k) ∧ t.fault = s.fault

/-- The tick of a completed instruction of the table, from the timers `dt` and `st` its effect left (R106, R108): each counts down
by one and stays at zero, `beep` is 1 exactly when the sound timer stood at 1, `unknown` is 0. -/
def TickedFrom (dt st : Byte) (t : State) : Prop :=
  t.dt.toNat = dt.toNat - 1 ∧ t.st.toNat = st.toNat - 1 ∧
    t.lastStep = some ⟨.done, decide (st.toNat = 1), false⟩

/-- The tick of a completed instruction that leaves the timers alone. -/
def Ticked (s t : State) : Prop := TickedFrom s.dt s.st t

/-- Everything but the general registers, `pc`, the timers, the step outputs and the count of draws as before. -/
def SameOutsideRegs (s t : State) : Prop :=
  t.index = s.index ∧ SameStack s t ∧ SameScreen s t ∧ SameMemory s t ∧ SameLatches s t

/-- `pc` moved on by `n`, a plain integer addition wherever the sum fits the 16-bit register (R105), as it does in every reachable
state (R36). -/
def PcPlus (n : Nat) (s t : State) : Prop := s.pc.toNat + n < 65536 → t.pc.toNat = s.pc.toNat + n

/-! ### Shapes of results -/

/-- `i` completes in `s`, writes `b` to `V[x]`, moves `pc` on by 2, ticks, and changes nothing else. -/
def WritesRegister (i : Instr) (s : State) (x : Reg) (b : Byte) : Prop :=
  ∃ t, exec i s = .next t ∧ getV t x = b ∧ SameRegsBut x s t ∧ PcPlus 2 s t ∧
    SameOutsideRegs s t ∧ t.draws = s.draws ∧ Ticked s t

/-- `i` completes in `s`, writes the flag `f` to `V[15]` and then `b` to `V[x]` (so that with `x = 15` the result survives, R110),
moves `pc` on by 2, ticks, and changes nothing else. -/
def WritesFlagAndRegister (i : Instr) (s : State) (f : Nat) (x : Reg) (b : Nat) : Prop :=
  ∃ t, exec i s = .next t ∧ (getV t x).toNat = b ∧ (x ≠ 15 → (getV t 15).toNat = f) ∧
    (∀ r : Reg, r ≠ x → r ≠ 15 → getV t r = getV s r) ∧ PcPlus 2 s t ∧
    SameOutsideRegs s t ∧ t.draws = s.draws ∧ Ticked s t

/-- `i` completes in `s`, moves `pc` on by 4 when `c` holds and by 2 otherwise, ticks, and changes nothing else. -/
def SkipsWhen (i : Instr) (s : State) (c : Prop) : Prop :=
  ∃ t, exec i s = .next t ∧ (c → PcPlus 4 s t) ∧ (¬c → PcPlus 2 s t) ∧
    SameRegs s t ∧ SameOutsideRegs s t ∧ t.draws = s.draws ∧ Ticked s t

/-- `i` takes the fatal fault `k` in `s`: the latch takes the kind, the step reports it, nothing else changes (R184). -/
def TakesFault (i : Instr) (s : State) (k : Fault) : Prop :=
  exec i s = .next { s with fault := some k, lastStep := some ⟨.fault k, false, false⟩ }

/-- The instruction the next step of a running engine decodes: the two bytes at `pc`, high byte first (R63, R102, R103). -/
abbrev Decodes (s : State) (i : Instr) : Prop :=
  s.pc.toNat + 1 ≤ 0xFFF ∧
    decodeBytes (readByte s.mem s.pc.toNat) (readByte s.mem (s.pc.toNat + 1)) = .instr i

end Sys2Proof.Machine
end

