-- ==== Sys2Proof/Certificates/Slice0/Obligations.lean ====
section
/-! DEFINITION. The statements for the provers, from the numbered rules of spec/. Where a clause rests on a decision the spec marks as
its own (spec 92_eei_decisions.md) or on a log entry of the model the docstring names it. Every statement that speaks of the outputs of
a step reads them from the state they leave (`State.lastStep`, log entry 2). -/

open Sys2Proof Sys2Proof.Machine

/-! ### Decoding and encoding -/

/-- R81, R82, R84: decoding the word of any instruction gives the instruction back, with every operand. Every term of `Instr` is well
formed (R90). -/
def Obligations.DecodeEncodeRoundTrip : Prop := ∀ i : Instr, decodeWord (encode i) = .instr i

/-- R81, R82, R90: a word that decodes to an instruction is the word of that instruction: no bit of it is dropped, the ignored `y` of
the shifts included. -/
def Obligations.EncodeDecodeRoundTrip : Prop := ∀ (op : Word) (i : Instr), decodeWord op = .instr i → encode i = op

/-- R85 (the literal digits of families 0, 5, 9 by decisions D4, D5, log entry 12): a word is the instruction of a row of the
opcode map exactly when `op & mask == match` for that row. -/
def Obligations.DecodeFollowsOpcodeMap : Prop :=
  (∀ (op : Word) (i : Instr), decodeWord op = .instr i → i.row ∈ opcodeMap ∧ i.row.Matches op) ∧
  (∀ op : Word, ∀ r ∈ opcodeMap, r.Matches op → ∃ i, decodeWord op = .instr i ∧ i.row = r)

/-- R84: the masks never overlap between two instructions: no word belongs to two rows of the map. -/
def Obligations.OpcodeRowsDisjoint : Prop :=
  opcodeMap.Pairwise fun r q => ∀ op : Word, ¬(r.Matches op ∧ q.Matches op)

/-- R86 with R87, R88 (decisions D4, D5, log entry 12): the words that decode to `UNKNOWN` are exactly those of the table of R86. -/
def Obligations.UnmatchedWordsAreUnknown : Prop :=
  ∀ op : Word, (∃ why, decodeWord op = .unknown why) ↔
    (famOf op = 0x0 ∧ nnnOf op ≠ 0x0E0 ∧ nnnOf op ≠ 0x0EE) ∨
    (famOf op = 0x5 ∧ nOf op ≠ 0) ∨
    (famOf op = 0x8 ∧ nOf op ∈ ([0x8, 0x9, 0xA, 0xB, 0xC, 0xD, 0xF] : List (BitVec 4))) ∨
    (famOf op = 0x9 ∧ nOf op ≠ 0) ∨
    (famOf op = 0xE ∧ kkOf op ∉ ([0x9E, 0xA1] : List Byte)) ∨
    (famOf op = 0xF ∧ kkOf op ∉ ([0x07, 0x0A, 0x15, 0x18, 0x1E, 0x29, 0x33, 0x55, 0x65] : List Byte))

/-- Eight words, high byte first, decode to the instructions they stand for, and one to `UNKNOWN` (spec 95_test_vectors.md 2.1; the
unmatched one by decision D5, log entry 12). -/
def Obligations.SampleWordsDecode : Prop :=
  decodeBytes 0x00 0xE0 = .instr .cls ∧ decodeBytes 0x2A 0xBC = .instr (.call 0xABC) ∧
  decodeBytes 0x3A 0x05 = .instr (.sek 10 0x05) ∧ decodeBytes 0x8A 0xB4 = .instr (.add 10 11) ∧
  decodeBytes 0xA2 0xF0 = .instr (.ldi 0x2F0) ∧ decodeBytes 0xD0 0x15 = .instr (.drw 0 1 5) ∧
  decodeBytes 0xEF 0xA1 = .instr (.sknp 15) ∧ decodeBytes 0xF7 0x55 = .instr (.stm 7) ∧
  decodeBytes 0x51 0x21 = .unknown .family5

/-! ### The step -/

/-- R100, R102, R103: a step of a running engine is the meaning of the instruction it decodes; this model's step adds nothing around
it (the tick is part of the meaning). At an odd `pc` this is decision D10 (log entry 10). -/
def Obligations.StepRunsDecodedInstruction : Prop :=
  ∀ (s : State) (i : Instr), s.fault = none → Decodes s i → step s = exec i s

/-- R107 (decision D6, log entry 12): an unmatched word signals `unknown`, advances `pc` by 2, lets the timers tick, and changes
nothing else. -/
def Obligations.UnknownWordStep : Prop :=
  ∀ (s : State) (why : Unmatched), s.fault = none → s.pc.toNat + 1 ≤ 0xFFF →
    decodeBytes (readByte s.mem s.pc.toNat) (readByte s.mem (s.pc.toNat + 1)) = .unknown why →
    ∃ t, step s = .next t ∧ PcPlus 2 s t ∧ SameRegs s t ∧ SameOutsideRegs s t ∧ t.draws = s.draws ∧
      t.dt.toNat = s.dt.toNat - 1 ∧ t.st.toNat = s.st.toNat - 1 ∧
      t.lastStep = some ⟨.done, decide (s.st.toNat = 1), true⟩

/-- R102 with R184 (decision D7, log entry 1): a fetch with `pc + 1 > 0xFFF` raises `AddressOutOfRange`; only the latch changes. -/
def Obligations.FetchPastMemoryFaults : Prop :=
  ∀ s : State, s.fault = none → 0xFFF < s.pc.toNat + 1 →
    step s = .next { s with
      fault := some .addressOutOfRange, lastStep := some ⟨.fault .addressOutOfRange, false, false⟩ }

/-- R101 (decisions D7, D29, log entry 1): a step of the halted engine changes nothing and reports the latched kind. -/
def Obligations.HaltedStepChangesNothing : Prop :=
  ∀ (s : State) (k : Fault), s.fault = some k →
    step s = .next { s with lastStep := some ⟨.fault k, false, false⟩ }

/-- R108: every step has an outcome. That a faulting, a halted and an unmatched step answer a next state, so that none is refused
and none stops the model, is the model's choice of log entry 1 (decisions D7, D29; for unmatched words D6, log entry 12); that the
outcome is found in the state is log entry 2. -/
def Obligations.StepAlwaysAnswersNext : Prop :=
  ∀ s : State, ∃ t o, step s = .next t ∧ t.lastStep = some o

/-- R108, R184, R204 (decisions D7, D11, log entries 1 and 11): a step whose outcome is not `Done` changes nothing but, on a
fault, the fault latch, which then holds the kind reported: no register, no memory byte, no pixel, no timer, and neither `beep`
nor `unknown` is raised. -/
def Obligations.UndoneStepChangesNothing : Prop :=
  ∀ (s t : State) (out : StepOutcome) (beep unknown : Bool), step s = .next t →
    t.lastStep = some ⟨out, beep, unknown⟩ → out ≠ .done →
    beep = false ∧ unknown = false ∧ t = { s with fault := t.fault, lastStep := t.lastStep } ∧
    (out = .awaitingInput → t.fault = s.fault) ∧ (∀ k, out = .fault k → t.fault = some k)

/-- The conditions of the table of R180, one kind at a time, for a running engine (the data-access rows by decision D8,
`ProtectedWrite` by D9, `KeyIndexOutOfRange` by D13: log entry 9). -/
def FaultDue (s : State) : Fault → Prop
  | .addressOutOfRange =>
    0xFFF < s.pc.toNat + 1 ∨
    (∃ x y n, Decodes s (.drw x y n) ∧ 1 ≤ n.toNat ∧ 0xFFF < s.index.toNat + n.toNat - 1) ∨
    (∃ x, Decodes s (.ldm x) ∧ 0xFFF < s.index.toNat + x.val) ∨
    (∃ x, Decodes s (.stm x) ∧ 0xFFF < s.index.toNat + x.val) ∨
    (∃ x, Decodes s (.bcd x) ∧ 0xFFF < s.index.toNat + 2)
  | .stackOverflow => ∃ nnn, Decodes s (.call nnn) ∧ s.sp.val = 16
  | .stackUnderflow => Decodes s .ret ∧ s.sp.val = 0
  | .protectedWrite => ∃ x, (Decodes s (.bcd x) ∨ Decodes s (.stm x)) ∧ s.index.toNat < 0x200
  | .keyIndexOutOfRange => ∃ x, (Decodes s (.skp x) ∨ Decodes s (.sknp x)) ∧ 15 < (getV s x).toNat

/-- R180, R181, R182, R188: a step of a running engine raises a kind of fault exactly on the condition of R180 for that kind
(log entry 9; that the latch holds it, decision D7, log entry 1). -/
def Obligations.FaultsRaisedExactlyWhenDue : Prop :=
  ∀ (s t : State) (k : Fault), s.fault = none → step s = .next t → (t.fault = some k ↔ FaultDue s k)

/-- R106, R192, R231 (wait and fault steps by decisions D7, D11, log entries 1 and 11): a completed step ticks each timer once,
from the value the instruction left: `DT` unless `Fx15` set it, `ST` unless `Fx18` set it; `beep` is raised exactly when the sound
timer stood at 1. -/
def Obligations.CompletedStepTicksOnce : Prop :=
  ∀ (s t : State) (beep unknown : Bool), step s = .next t → t.lastStep = some ⟨.done, beep, unknown⟩ →
    ((∀ x, ¬Decodes s (.setdt x)) → t.dt.toNat = s.dt.toNat - 1) ∧
    (∀ x, Decodes s (.setdt x) → t.dt.toNat = (getV s x).toNat - 1) ∧
    ((∀ x, ¬Decodes s (.setst x)) → t.st.toNat = s.st.toNat - 1 ∧ beep = decide (s.st.toNat = 1)) ∧
    (∀ x, Decodes s (.setst x) → t.st.toNat = (getV s x).toNat - 1 ∧ beep = decide ((getV s x).toNat = 1))

/-! ### Invariants and whole-machine rules -/

/-- R36: the state right after reset meets the invariant, under every FONT and KEY_PICK (R6, log entries 4 and 5). -/
def Obligations.ResetMeetsInvariant : Prop := State.reset.Inv ∧ ∀ p : Config.Params, (State.resetWith p).Inv

/-- R36: every step from a state that meets the invariant leads to one that meets it (that memory below 0x200 stays as reset left it
rests on decision D9, log entry 9). -/
def Obligations.StepKeepsInvariant : Prop := ∀ s t : State, s.Inv → step s = .next t → t.Inv

/-- R36 with R195: every operation of the host keeps the invariant. -/
def Obligations.HostOperationsKeepInvariant : Prop :=
  ∀ (s t : State) (c : HostCall) (v : HostValue), s.Inv → hostCallOn s c = .answered t v → t.Inv

/-- R61, R67 (decision D9, log entry 9), in every state: no step changes a byte below 0x200. -/
def Obligations.EngineNeverWritesBelowProgram : Prop :=
  ∀ s t : State, step s = .next t → ∀ a, a < 0x200 → readByte t.mem a = readByte s.mem a

/-- R65: an instruction that changes a byte of memory is `Fx33` or `Fx55`, and the byte is one of those it stores: `mem[I]` to
`mem[I+2]`, or `mem[I]` to `mem[I+x]`. -/
def Obligations.OnlyStoresChangeMemory : Prop :=
  ∀ (i : Instr) (s t : State) (a : Nat), exec i s = .next t → readByte t.mem a ≠ readByte s.mem a →
    (∃ x, i = .bcd x ∧ s.index.toNat ≤ a ∧ a ≤ s.index.toNat + 2) ∨
    (∃ x, i = .stm x ∧ s.index.toNat ≤ a ∧ a ≤ s.index.toNat + x.val)

/-- R22, R24, R27, R31, R32: `I`, the stack, the framebuffer and the fault latch are changed only by the instructions the spec
names for each. The latch's writers rest on decision D7 (log entry 1), those for data accesses and key indexes on D8, D9, D13 (log
entry 9). The count of draws is the model's own field, which no rule names (log entry 3). -/
def Obligations.OnlyNamedWritersChangeState : Prop :=
  ∀ (i : Instr) (s t : State), exec i s = .next t →
    (t.index ≠ s.index → (∃ nnn, i = .ldi nnn) ∨ (∃ x, i = .addi x) ∨ (∃ x, i = .ldf x)) ∧
    (t.sp ≠ s.sp → (∃ nnn, i = .call nnn) ∨ i = .ret) ∧
    (t.stack ≠ s.stack → ∃ nnn, i = .call nnn) ∧
    (t.fb ≠ s.fb → i = .cls ∨ ∃ x y n, i = .drw x y n) ∧
    (t.draws ≠ s.draws → ∃ x kk, i = .rnd x kk) ∧
    (t.fault ≠ s.fault → (∃ nnn, i = .call nnn) ∨ i = .ret ∨ (∃ x, i = .skp x) ∨ (∃ x, i = .sknp x) ∨
      (∃ x y n, i = .drw x y n) ∨ (∃ x, i = .bcd x) ∨ (∃ x, i = .stm x) ∨ (∃ x, i = .ldm x))

/-- R21: an instruction that changes `V[15]` is one of the seven flag writers, or names `V[15]` as its destination (`x = 15`). -/
def Obligations.FlagRegisterWriters : Prop :=
  ∀ (i : Instr) (s t : State), exec i s = .next t → getV t 15 ≠ getV s 15 →
    (∃ x y, i = .add x y ∨ i = .sub x y ∨ i = .shr x y ∨ i = .subn x y ∨ i = .shl x y) ∨
    (∃ x y n, i = .drw x y n) ∨ (∃ x, i = .addi x) ∨
    (∃ kk, i = .ldk 15 kk ∨ i = .addk 15 kk ∨ i = .rnd 15 kk) ∨
    (∃ y, i = .mov 15 y ∨ i = .or 15 y ∨ i = .and 15 y ∨ i = .xor 15 y) ∨
    i = .getdt 15 ∨ i = .waitk 15 ∨ i = .ldm 15

/-- R28, R29: no step changes the key latch, and no step clears the redraw flag. -/
def Obligations.StepLeavesKeysAndKeepsRedraw : Prop :=
  ∀ s t : State, step s = .next t → (∀ k, keyDown t k = keyDown s k) ∧ (s.redraw = true → t.redraw = true)

/-- R6, R34 (the field is the model's own, log entries 4 and 5): FONT and KEY_PICK are fixed for a machine. No instruction, no
step and no host operation, a reset included, changes them. -/
def Obligations.ParametersNeverChange : Prop :=
  (∀ (i : Instr) (s t : State), exec i s = .next t → t.params = s.params) ∧
  (∀ s t : State, step s = .next t → t.params = s.params) ∧
  (∀ (s t : State) (c : HostCall) (v : HostValue), hostCallOn s c = .answered t v → t.params = s.params)

/-- Two states that differ at most in the sound timer, the redraw flag and the outputs of the last step. -/
def SameButSoundAndRedraw (s s' : State) : Prop :=
  s' = { s with st := s'.st, redraw := s'.redraw, lastStep := s'.lastStep }

/-- R26, R28, R34: a program cannot learn the sound timer or the redraw flag: two states that differ only in them take steps to states
that differ only in them, with the same outcome and the same `unknown`. -/
def Obligations.SoundTimerAndRedrawInvisible : Prop :=
  ∀ s s' t t' : State, SameButSoundAndRedraw s s' → step s = .next t → step s' = .next t' →
    SameButSoundAndRedraw t t' ∧
      t.lastStep.map (fun o => (o.outcome, o.unknown)) = t'.lastStep.map (fun o => (o.outcome, o.unknown))

/-- Two states that differ at most in stack slots that hold no live return address. -/
def SameButDeadSlots (s s' : State) : Prop :=
  s' = { s with stack := s'.stack } ∧ ∀ k : Fin 16, k.val < s.sp.val → s'.stack[k] = s.stack[k]

/-- R24 (decision D21, log entry 13): a popped slot keeps its value, which nothing can observe: two states that differ only in
dead slots take steps to states that differ only in dead slots. -/
def Obligations.DeadStackSlotsInvisible : Prop :=
  ∀ s s' t t' : State, SameButDeadSlots s s' → step s = .next t → step s' = .next t' → SameButDeadSlots t t'

/-! ### Jumps, calls, returns -/

/-- R121: `1nnn` sets `pc` to `nnn`; nothing else changes but the tick. -/
def Obligations.JumpResult : Prop :=
  (∀ op : Word, famOf op = 0x1 → decodeWord op = .instr (.jp (nnnOf op))) ∧
  ∀ (s : State) (nnn : BitVec 12), ∃ t, exec (.jp nnn) s = .next t ∧ t.pc.toNat = nnn.toNat ∧
    SameRegs s t ∧ SameOutsideRegs s t ∧ t.draws = s.draws ∧ Ticked s t

/-- R123 (decision D17, log entry 13: the sum is not masked to 12 bits): `Bnnn` sets `pc` to `nnn + V[0]`. -/
def Obligations.IndexedJumpResult : Prop :=
  (∀ op : Word, famOf op = 0xB → decodeWord op = .instr (.jpv0 (nnnOf op))) ∧
  ∀ (s : State) (nnn : BitVec 12), ∃ t, exec (.jpv0 nnn) s = .next t ∧
    t.pc.toNat = nnn.toNat + (getV s 0).toNat ∧
    SameRegs s t ∧ SameOutsideRegs s t ∧ t.draws = s.draws ∧ Ticked s t

/-- R122: with fewer than 16 entries `2nnn` stores `pc` at `stack[sp]`, adds 1 to `sp` and jumps; with 16 it raises
`StackOverflow` and changes nothing but the latch. The stack discipline is decision D21 (log entry 13), the state the fault leaves D7
(log entry 1). -/
def Obligations.CallResult : Prop :=
  (∀ op : Word, famOf op = 0x2 → decodeWord op = .instr (.call (nnnOf op))) ∧
  ∀ (s : State) (nnn : BitVec 12),
    (s.sp.val < 16 → ∃ t, exec (.call nnn) s = .next t ∧ t.pc.toNat = nnn.toNat ∧
      t.sp.val = s.sp.val + 1 ∧ (∀ k : Fin 16, t.stack[k] = if k.val = s.sp.val then s.pc else s.stack[k]) ∧
      SameRegs s t ∧ t.index = s.index ∧ SameScreen s t ∧ SameMemory s t ∧ SameLatches s t ∧
      t.draws = s.draws ∧ Ticked s t) ∧
    (s.sp.val = 16 → TakesFault (.call nnn) s .stackOverflow)

/-- R120: with an entry on the stack `00EE` subtracts 1 from `sp` and sets `pc` to `stack[sp] + 2` (a sum that fits the register for
every return address of R36), the slot keeping its value; with none it raises `StackUnderflow` and changes nothing but the latch.
That the slot keeps its value is decision D21 (log entry 13), the state the fault leaves D7 (log entry 1). -/
def Obligations.ReturnResult : Prop :=
  decodeWord 0x00EE = .instr .ret ∧
  ∀ s : State,
    (∀ k : Fin 16, s.sp.val = k.val + 1 → ∃ t, exec .ret s = .next t ∧
      ((s.stack[k]).toNat + 2 < 65536 → t.pc.toNat = (s.stack[k]).toNat + 2) ∧ t.sp.val = k.val ∧
      (∀ j : Fin 16, t.stack[j] = s.stack[j]) ∧
      SameRegs s t ∧ t.index = s.index ∧ SameScreen s t ∧ SameMemory s t ∧ SameLatches s t ∧
      t.draws = s.draws ∧ Ticked s t) ∧
    (s.sp.val = 0 → TakesFault .ret s .stackUnderflow)

/-- R120, R122: a return in any state that has the stack a call left goes to the instruction after the call and leaves the stack
pointer as it was before the call (the stack discipline by decision D21, log entry 13). -/
def Obligations.CallThenReturn : Prop :=
  ∀ (s t u : State) (nnn : BitVec 12), s.sp.val < 16 → exec (.call nnn) s = .next t →
    u.sp = t.sp → u.stack = t.stack →
    ∃ w, exec .ret u = .next w ∧ PcPlus 2 s w ∧ w.sp = s.sp

/-! ### Skips -/

/-- R125 to R128: `3xkk`, `4xkk`, `5xy0`, `9xy0` move `pc` by 4 when their condition holds, by 2 otherwise; nothing else changes but
the tick. That `5xyn` and `9xyn` with `n` not 0 are `UNKNOWN` is decision D5 (log entry 12). -/
def Obligations.RegisterSkipResults : Prop :=
  (∀ op : Word, famOf op = 0x3 → decodeWord op = .instr (.sek (xOf op) (kkOf op))) ∧
  (∀ op : Word, famOf op = 0x4 → decodeWord op = .instr (.snek (xOf op) (kkOf op))) ∧
  (∀ op : Word, famOf op = 0x5 →
    (nOf op = 0 → decodeWord op = .instr (.se (xOf op) (yOf op))) ∧ (nOf op ≠ 0 → ∃ why, decodeWord op = .unknown why)) ∧
  (∀ op : Word, famOf op = 0x9 →
    (nOf op = 0 → decodeWord op = .instr (.sne (xOf op) (yOf op))) ∧ (nOf op ≠ 0 → ∃ why, decodeWord op = .unknown why)) ∧
  ∀ (s : State) (x y : Reg) (kk : Byte),
    SkipsWhen (.sek x kk) s (getV s x = kk) ∧ SkipsWhen (.snek x kk) s (getV s x ≠ kk) ∧
    SkipsWhen (.se x y) s (getV s x = getV s y) ∧ SkipsWhen (.sne x y) s (getV s x ≠ getV s y)

/-- R170, R171 (the fault by decision D13, log entry 9): with `V[x]` at most 15 `Ex9E` skips when that key is pressed and `ExA1`
when it is not; above 15 both raise `KeyIndexOutOfRange` and change nothing but the latch. -/
def Obligations.KeySkipResults : Prop :=
  ∀ (s : State) (x : Reg),
    (∀ k : Key, (getV s x).toNat = k.val →
      SkipsWhen (.skp x) s (keyDown s k = true) ∧ SkipsWhen (.sknp x) s (keyDown s k = false)) ∧
    (15 < (getV s x).toNat →
      TakesFault (.skp x) s .keyIndexOutOfRange ∧ TakesFault (.sknp x) s .keyIndexOutOfRange)

/-! ### Registers and arithmetic -/

/-- R130, R132 to R135: `6xkk`, `8xy0`, `8xy1`, `8xy2`, `8xy3` write their value to `V[x]`; no flag is written. -/
def Obligations.LoadAndLogicResults : Prop :=
  (∀ op : Word, famOf op = 0x6 → decodeWord op = .instr (.ldk (xOf op) (kkOf op))) ∧
  (∀ op : Word, famOf op = 0x8 →
    (nOf op = 0x0 → decodeWord op = .instr (.mov (xOf op) (yOf op))) ∧
    (nOf op = 0x1 → decodeWord op = .instr (.or (xOf op) (yOf op))) ∧
    (nOf op = 0x2 → decodeWord op = .instr (.and (xOf op) (yOf op))) ∧
    (nOf op = 0x3 → decodeWord op = .instr (.xor (xOf op) (yOf op)))) ∧
  ∀ (s : State) (x y : Reg) (kk : Byte),
    WritesRegister (.ldk x kk) s x kk ∧
    WritesRegister (.mov x y) s x (getV s y) ∧
    WritesRegister (.or x y) s x (getV s x ||| getV s y) ∧
    WritesRegister (.and x y) s x (getV s x &&& getV s y) ∧
    WritesRegister (.xor x y) s x (getV s x ^^^ getV s y)

/-- R131: `7xkk` adds `kk` to `V[x]` modulo 256; no flag is written. -/
def Obligations.AddImmediateResult : Prop :=
  (∀ op : Word, famOf op = 0x7 → decodeWord op = .instr (.addk (xOf op) (kkOf op))) ∧
  ∀ (s : State) (x : Reg) (kk : Byte), ∃ b : Byte,
    b.toNat = ((getV s x).toNat + kk.toNat) % 256 ∧ WritesRegister (.addk x kk) s x b

/-- R136, R142 with R104, R110 (decisions D2, D3, log entry 8, for `x` or `y` = 15): `8xy4` writes the carry to `V[15]`, then the
sum modulo 256 to `V[x]`, both of the operands before the instruction. -/
def Obligations.AddResult : Prop :=
  ∀ (s : State) (x y : Reg),
    WritesFlagAndRegister (.add x y) s (if 255 < (getV s x).toNat + (getV s y).toNat then 1 else 0) x
      (((getV s x).toNat + (getV s y).toNat) % 256)

/-- R137, R139, R142 with R104, R110 (decisions D2, D3, log entry 8): `8xy5` and `8xy7` write the not-borrow to `V[15]`, then the
difference modulo 256 to `V[x]`. -/
def Obligations.SubtractResults : Prop :=
  ∀ (s : State) (x y : Reg),
    WritesFlagAndRegister (.sub x y) s (if (getV s y).toNat ≤ (getV s x).toNat then 1 else 0) x
      (((getV s x).toNat + 256 - (getV s y).toNat) % 256) ∧
    WritesFlagAndRegister (.subn x y) s (if (getV s x).toNat ≤ (getV s y).toNat then 1 else 0) x
      (((getV s y).toNat + 256 - (getV s x).toNat) % 256)

/-- R138, R140, R142 with R110 (decision D3, log entry 8): `8xy6` and `8xyE` write the bit shifted out to `V[15]`, then the
shifted value to `V[x]`, whatever `y` is. -/
def Obligations.ShiftResults : Prop :=
  ∀ (s : State) (x y : Reg),
    WritesFlagAndRegister (.shr x y) s ((getV s x).toNat % 2) x ((getV s x).toNat / 2) ∧
    WritesFlagAndRegister (.shl x y) s ((getV s x).toNat / 128) x (2 * (getV s x).toNat % 256)

/-- R141 (decision D14, log entry 3): `Cxkk` writes a fresh free byte masked with `kk`; the statement holds whatever the byte is,
so that `V[x] & ~kk = 0` is all that can be relied on. -/
def Obligations.RandomByteResult : Prop :=
  ∀ (s : State) (x : Reg) (kk : Byte), ∃ t, exec (.rnd x kk) s = .next t ∧
    getV t x = Config.randomByte s.draws &&& kk ∧ getV t x &&& ~~~kk = 0 ∧ t.draws = s.draws + 1 ∧
    SameRegsBut x s t ∧ PcPlus 2 s t ∧ SameOutsideRegs s t ∧ Ticked s t

/-! ### Index register and memory -/

/-- R150, R152: `Annn` sets `I` to `nnn`, `Fx29` to `V[x]` times 5; nothing else changes but `pc` and the tick. That `Fx29`
multiplies the whole byte, unmasked, is decision D17 (log entry 13). -/
def Obligations.IndexLoadResults : Prop :=
  (∀ op : Word, famOf op = 0xA → decodeWord op = .instr (.ldi (nnnOf op))) ∧
  (∀ op : Word, famOf op = 0xF → kkOf op = 0x29 → decodeWord op = .instr (.ldf (xOf op))) ∧
  ∀ s : State,
    (∀ nnn : BitVec 12, ∃ t, exec (.ldi nnn) s = .next t ∧ t.index.toNat = nnn.toNat ∧ SameRegs s t ∧ PcPlus 2 s t ∧
      SameStack s t ∧ SameScreen s t ∧ SameMemory s t ∧ SameLatches s t ∧ t.draws = s.draws ∧ Ticked s t) ∧
    (∀ x : Reg, ∃ t, exec (.ldf x) s = .next t ∧ t.index.toNat = (getV s x).toNat * 5 ∧ SameRegs s t ∧ PcPlus 2 s t ∧
      SameStack s t ∧ SameScreen s t ∧ SameMemory s t ∧ SameLatches s t ∧ t.draws = s.draws ∧ Ticked s t)

/-- R151 with R104 (decisions D2, D17, log entries 8 and 13): `Fx1E` writes to `V[15]` whether `I + V[x]` passes 0xFFF and adds
the old `V[x]` to `I` modulo 65536. -/
def Obligations.IndexAddResult : Prop :=
  ∀ (s : State) (x : Reg), ∃ t, exec (.addi x) s = .next t ∧
    t.index.toNat = (s.index.toNat + (getV s x).toNat) % 65536 ∧
    (getV t 15).toNat = (if 0xFFF < s.index.toNat + (getV s x).toNat then 1 else 0) ∧
    SameRegsBut 15 s t ∧ PcPlus 2 s t ∧ SameStack s t ∧ SameScreen s t ∧ SameMemory s t ∧ SameLatches s t ∧
    t.draws = s.draws ∧ Ticked s t

/-- R153 (range and protection by decisions D8, D9, log entry 9): with `I` to `I + 2` within 0x200 to 0xFFF, `Fx33` stores the
decimal digits of `V[x]`, hundreds, tens, ones, and leaves every other byte and every register as it was. -/
def Obligations.DecimalStoreResult : Prop :=
  ∀ (s : State) (x : Reg), Memory.wf s.mem = true → 0x200 ≤ s.index.toNat → s.index.toNat + 2 ≤ 0xFFF →
    ∃ t, exec (.bcd x) s = .next t ∧
      (readByte t.mem s.index.toNat).toNat = (getV s x).toNat / 100 ∧
      (readByte t.mem (s.index.toNat + 1)).toNat = (getV s x).toNat / 10 % 10 ∧
      (readByte t.mem (s.index.toNat + 2)).toNat = (getV s x).toNat % 10 ∧
      (∀ a, a < s.index.toNat ∨ s.index.toNat + 2 < a → readByte t.mem a = readByte s.mem a) ∧
      t.index = s.index ∧ SameRegs s t ∧ PcPlus 2 s t ∧ SameStack s t ∧ SameScreen s t ∧ SameLatches s t ∧
      t.draws = s.draws ∧ Ticked s t

/-- R154 (range and protection by decisions D8, D9, log entry 9): with `I` to `I + x` within 0x200 to 0xFFF, `Fx55` stores `V[0]`
to `V[x]` from `I` upward and leaves every other byte, every register and `I` as it was. -/
def Obligations.RegisterStoreResult : Prop :=
  ∀ (s : State) (x : Reg), Memory.wf s.mem = true → 0x200 ≤ s.index.toNat → s.index.toNat + x.val ≤ 0xFFF →
    ∃ t, exec (.stm x) s = .next t ∧
      (∀ k : Reg, k ≤ x → readByte t.mem (s.index.toNat + k.val) = getV s k) ∧
      (∀ a, a < s.index.toNat ∨ s.index.toNat + x.val < a → readByte t.mem a = readByte s.mem a) ∧
      t.index = s.index ∧ SameRegs s t ∧ PcPlus 2 s t ∧ SameStack s t ∧ SameScreen s t ∧ SameLatches s t ∧
      t.draws = s.draws ∧ Ticked s t

/-- R155 (range by decision D8, log entry 9): with `I + x` at most 0xFFF, `Fx65` loads `V[0]` to `V[x]` from `I` upward and leaves
the registers above `x`, `I` and memory as they were. -/
def Obligations.RegisterLoadResult : Prop :=
  ∀ (s : State) (x : Reg), s.index.toNat + x.val ≤ 0xFFF →
    ∃ t, exec (.ldm x) s = .next t ∧
      (∀ k : Reg, k ≤ x → getV t k = readByte s.mem (s.index.toNat + k.val)) ∧
      (∀ k : Reg, x < k → getV t k = getV s k) ∧
      PcPlus 2 s t ∧ SameOutsideRegs s t ∧ t.draws = s.draws ∧ Ticked s t

/-- R65, R66, R67 with R184 (decisions D7, D8, D9, D26, log entries 1 and 9): a memory instruction that would touch a byte above
0xFFF, or store one below 0x200, raises its fault and has no other effect; no part of it is done. -/
def Obligations.MemoryInstructionFaults : Prop :=
  ∀ (s : State) (x y : Reg) (n : BitVec 4),
    (0xFFF < s.index.toNat + 2 → TakesFault (.bcd x) s .addressOutOfRange) ∧
    (s.index.toNat < 0x200 → TakesFault (.bcd x) s .protectedWrite) ∧
    (0xFFF < s.index.toNat + x.val → TakesFault (.stm x) s .addressOutOfRange) ∧
    (s.index.toNat < 0x200 → TakesFault (.stm x) s .protectedWrite) ∧
    (0xFFF < s.index.toNat + x.val → TakesFault (.ldm x) s .addressOutOfRange) ∧
    (1 ≤ n.toNat → 0xFFF < s.index.toNat + n.toNat - 1 → TakesFault (.drw x y n) s .addressOutOfRange)

/-- R72: the word that `Fx55` stores at `a` and `a + 1` is the word fetched when `pc` is `a`, with nothing between (the range by
decisions D8, D9, log entry 9; an odd `a` by D10, log entry 10). -/
def Obligations.StoreSeenByNextFetch : Prop :=
  ∀ (s t : State) (x k j : Reg) (a : Word), Memory.wf s.mem = true → 0x200 ≤ s.index.toNat →
    s.index.toNat + x.val ≤ 0xFFF → exec (.stm x) s = .next t →
    j.val = k.val + 1 → j ≤ x → a.toNat = s.index.toNat + k.val →
    fetch { t with pc := a } = some (wordOfBytes (getV s k) (getV s j))

/-! ### Display -/

/-- R160: `00E0` turns every pixel off and sets the redraw flag; `V[15]` is not written. -/
def Obligations.ClearScreenResult : Prop :=
  decodeWord 0x00E0 = .instr .cls ∧
  ∀ s : State, ∃ t, exec .cls s = .next t ∧ (∀ r c, pixel t.fb r c = false) ∧ t.redraw = true ∧
    SameRegs s t ∧ PcPlus 2 s t ∧ t.index = s.index ∧ SameStack s t ∧ SameMemory s t ∧ SameLatches s t ∧
    t.draws = s.draws ∧ Ticked s t

/-- Sprite bit (row `r`, column `c`) of the sprite at `I`: bit `7 - c` of the byte `mem[I + r]` (R162, decision D15, log entry
16). -/
def spriteBit (s : State) (r c : Nat) : Bool := (readByte s.mem (s.index.toNat + r)).getLsbD (7 - c)

/-- The pixel that sprite bit (row `r`, column `c`) falls on when the sprite is drawn at (`V[x]`, `V[y]`) (R162). -/
def targetPixel (s : State) (x y : Reg) (r c : Nat) : Fin 32 × Fin 64 :=
  (rowOf ((getV s y).toNat + r), colOf ((getV s x).toNat + c))

/-- R161 to R164 with R104 (bit order by decision D15, `x` or `y` = 15 by D2, the range by D8: log entries 16, 8, 9): `Dxyn` with
`n = 0` or `I + n - 1` at most 0xFFF XORs every sprite bit into its pixel, leaves every other pixel, writes to `V[15]` whether
some bit met a lit pixel, sets the redraw flag, and changes nothing else. -/
def Obligations.DrawResult : Prop :=
  ∀ (s : State) (x y : Reg) (n : BitVec 4), (n = 0 ∨ s.index.toNat + n.toNat - 1 ≤ 0xFFF) →
    ∃ t, exec (.drw x y n) s = .next t ∧
      (∀ r c, r < n.toNat → c < 8 →
        pixel t.fb (targetPixel s x y r c).1 (targetPixel s x y r c).2 =
          (pixel s.fb (targetPixel s x y r c).1 (targetPixel s x y r c).2 ^^ spriteBit s r c)) ∧
      (∀ q d, (∀ r c, r < n.toNat → c < 8 → targetPixel s x y r c ≠ (q, d)) → pixel t.fb q d = pixel s.fb q d) ∧
      ((∃ r c, r < n.toNat ∧ c < 8 ∧ spriteBit s r c = true ∧
        pixel s.fb (targetPixel s x y r c).1 (targetPixel s x y r c).2 = true) → getV t 15 = 1) ∧
      ((∀ r c, r < n.toNat → c < 8 → spriteBit s r c = true →
        pixel s.fb (targetPixel s x y r c).1 (targetPixel s x y r c).2 = false) → getV t 15 = 0) ∧
      t.redraw = true ∧ SameRegsBut 15 s t ∧ PcPlus 2 s t ∧ t.index = s.index ∧ SameStack s t ∧ SameMemory s t ∧
      SameLatches s t ∧ t.draws = s.draws ∧ Ticked s t

/-- R163: drawing the same sprite twice at the same place restores the framebuffer. The second draw reports a collision exactly
when some sprite bit fell on a pixel that was off before the first: the model's reading of R161 and R163, against R163's last
sentence (log entry 15). `x` and `y` are not 15, since the first draw writes `V[15]`; the bit order is decision D15 (log entry
16), the range D8 (log entry 9). -/
def Obligations.DrawTwiceRestores : Prop :=
  ∀ (s t u : State) (x y : Reg) (n : BitVec 4), x ≠ 15 → y ≠ 15 →
    (n = 0 ∨ s.index.toNat + n.toNat - 1 ≤ 0xFFF) →
    exec (.drw x y n) s = .next t → exec (.drw x y n) t = .next u →
    (∀ r c, pixel u.fb r c = pixel s.fb r c) ∧
      (getV u 15 = 1 ↔ ∃ r c, r < n.toNat ∧ c < 8 ∧ spriteBit s r c = true ∧
        pixel s.fb (targetPixel s x y r c).1 (targetPixel s x y r c).2 = false)

/-- R163's last sentence taken literally, which the rules R161 and R163 themselves contradict (log entry 15): the second of two equal
draws reports a collision whenever the sprite has any bit set. It fails where every set bit falls on a lit pixel: the first draw
turns them all off, the second turns them on (bit order: log entry 16; range: log entry 9). -/
def Obligations.SecondDrawAlwaysCollides : Prop :=
  ∀ (s t u : State) (x y : Reg) (n : BitVec 4), x ≠ 15 → y ≠ 15 →
    (n = 0 ∨ s.index.toNat + n.toNat - 1 ≤ 0xFFF) →
    exec (.drw x y n) s = .next t → exec (.drw x y n) t = .next u →
    (∃ r c, r < n.toNat ∧ c < 8 ∧ spriteBit s r c = true) → getV u 15 = 1

/-! ### Keys and timers -/

/-- R173, R204 (decision D11, log entry 11): with no key pressed `Fx0A` changes nothing at all, timers included; the step reports
`AwaitingInput`. -/
def Obligations.KeyWaitChangesNothing : Prop :=
  ∀ (s : State) (x : Reg), (∀ k, keyDown s k = false) →
    exec (.waitk x) s = .next { s with lastStep := some ⟨.awaitingInput, false, false⟩ }

/-- R173, for every KEY_PICK (decision D12, log entry 4): with a key pressed `Fx0A` writes the index of a pressed key to `V[x]`, of the
one key when only one is pressed, and moves on. -/
def Obligations.KeyWaitCompletes : Prop :=
  ∀ (s : State) (x : Reg), (∃ k, keyDown s k = true) →
    ∃ k b, keyDown s k = true ∧ (∀ j, (∀ i, keyDown s i = true → i = j) → k = j) ∧
      b.toNat = k.val ∧ WritesRegister (.waitk x) s x b

/-- R6, R173 (decision D12, log entry 4): with the default KEY_PICK, under which reset leaves the machine, `Fx0A` writes the
lowest of the pressed keys. -/
def Obligations.LowestKeyByDefault : Prop :=
  State.reset.params.keyPick = [] ∧
  ∀ (s : State) (x : Reg), s.params.keyPick = [] → (∃ k, keyDown s k = true) →
    ∃ k b, keyDown s k = true ∧ (∀ j, keyDown s j = true → k ≤ j) ∧ b.toNat = k.val ∧ WritesRegister (.waitk x) s x b

/-- R6, R173 (decision D12, log entry 4): KEY_PICK can be any function from the non-empty sets of pressed keys to one of their
members: some table makes `Fx0A` write the key that function chooses. -/
def Obligations.EveryKeyChoiceIsAParameter : Prop :=
  ∀ choose : List Key → Key, (∀ l, l ≠ [] → choose l ∈ l) →
    ∃ table : Config.KeyPick, ∀ (s : State) (x : Reg), s.params.keyPick = table → (∃ k, keyDown s k = true) →
      ∃ b : Byte, b.toNat = (choose (pressedKeys s)).val ∧ WritesRegister (.waitk x) s x b

/-- R172, R174, R175: `Fx07` copies `DT` before the tick of its own step; `Fx15` and `Fx18` set a timer and the tick of the same step
follows, `Fx18` with value 1 beeping in its own step. -/
def Obligations.TimerAccessResults : Prop :=
  (∀ op : Word, famOf op = 0xF →
    (kkOf op = 0x07 → decodeWord op = .instr (.getdt (xOf op))) ∧
    (kkOf op = 0x15 → decodeWord op = .instr (.setdt (xOf op))) ∧
    (kkOf op = 0x18 → decodeWord op = .instr (.setst (xOf op)))) ∧
  ∀ (s : State) (x : Reg),
    WritesRegister (.getdt x) s x s.dt ∧
    (∃ t, exec (.setdt x) s = .next t ∧ TickedFrom (getV s x) s.st t ∧ SameRegs s t ∧ PcPlus 2 s t ∧
      SameOutsideRegs s t ∧ t.draws = s.draws) ∧
    (∃ t, exec (.setst x) s = .next t ∧ TickedFrom s.dt (getV s x) t ∧ SameRegs s t ∧ PcPlus 2 s t ∧
      SameOutsideRegs s t ∧ t.draws = s.draws)

/-! ### Reset and the host's operations -/

/-- R35, R220, R221 (the redraw flag, the keys and the latch by decisions D7, D19, log entry 14): the state after the first reset, and after
a reset of any state, halted or not, under every FONT and KEY_PICK (R6, log entries 4 and 5); memory is FONT at 0x000 to 0x04F and 0
elsewhere. `State.reset` is the reset under the defaults. A later reset keeps the parameters and the count of draws, the model's own
fields (log entries 3, 4, 5). That the outputs of the last step are a field, empty after reset (`lastStep = none`), is the model's
choice of log entry 2; that a reset of a machine that has run clears them, the model's choice of log entry 18. -/
def Obligations.ResetValues : Prop :=
  State.reset = State.resetWith defaultParams ∧
  (∀ s : State, hostCallOn s .restart = .answered { State.resetWith s.params with draws := s.draws } .unit) ∧
  ∀ p : Config.Params, hostCall p none .restart = .answered (State.resetWith p) .unit ∧
    (State.resetWith p).params = p ∧ (State.resetWith p).lastStep = none ∧
    (∀ r, getV (State.resetWith p) r = 0) ∧ (State.resetWith p).index = 0 ∧ (State.resetWith p).pc = 0x200 ∧
    (State.resetWith p).sp.val = 0 ∧ (∀ k : Fin 16, (State.resetWith p).stack[k] = 0) ∧
    (State.resetWith p).dt = 0 ∧ (State.resetWith p).st = 0 ∧
    (∀ r c, pixel (State.resetWith p).fb r c = false) ∧ (State.resetWith p).redraw = false ∧
    (∀ k, keyDown (State.resetWith p) k = false) ∧ (State.resetWith p).fault = none ∧
    (∀ k : Fin 80, readByte (State.resetWith p).mem k.val = p.font[k]) ∧
    (∀ a, 80 ≤ a → readByte (State.resetWith p).mem a = 0)

/-- R224: an image of at most 3584 bytes is copied to 0x200 upward and every other byte and all other state stay; a longer one writes
nothing and returns `ImageTooLarge`. The premise that no step has been made since reset is R225 (decision D22, log entry 7);
the model reads it from `lastStep = none` (log entry 2), steps counted from the reset (log entry 18). -/
def Obligations.LoadProgramResult : Prop :=
  ∀ (s : State) (bytes : Image), Memory.wf s.mem = true → s.lastStep = none →
    (bytes.length ≤ 3584 → ∃ t, hostCallOn s (.loadProgram bytes) = .answered t .loaded ∧
      t = { s with mem := t.mem } ∧
      (∀ k, k < bytes.length → readByte t.mem (0x200 + k) = bytes.getD k 0) ∧
      (∀ a, a < 0x200 ∨ 0x200 + bytes.length ≤ a → readByte t.mem a = readByte s.mem a)) ∧
    (3584 < bytes.length → hostCallOn s (.loadProgram bytes) = .answered s .imageTooLarge)

/-- R222, R225, R201 (decisions D27, D22, D24, log entry 7): nothing but reset has a meaning before the first reset, a load after
a step is refused, and a key index above 15 is refused. -/
def Obligations.BoundaryRefusals : Prop :=
  (∀ (p : Config.Params) (c : HostCall), c ≠ .restart → hostCall p none c = .refused .notYetReset) ∧
  (∀ (s t : State) (o : Option StepOutputs) (bytes : Image), hostCallOn s .step = .answered t (.outputs o) →
    hostCallOn t (.loadProgram bytes) = .refused .loadAfterStep) ∧
  (∀ (s : State) (index : Nat) (pressed : Bool), 15 < index →
    hostCallOn s (.setKey index pressed) = .refused .keyIndexOutsideLatch)

/-- R201: `set_key` writes one latch bit and touches nothing else. -/
def Obligations.SetKeyResult : Prop :=
  ∀ (s : State) (k : Key) (pressed : Bool), ∃ t, hostCallOn s (.setKey k.val pressed) = .answered t .unit ∧
    t = { s with keys := t.keys } ∧ keyDown t k = pressed ∧ ∀ j, j ≠ k → keyDown t j = keyDown s j

/-- R198, R199, R200: the readings return the framebuffer and the redraw flag and change nothing; clearing the flag changes only it; no
operation but clearing and reset clears it; and none but a step and reset changes a pixel. -/
def Obligations.DisplayOperations : Prop :=
  (∀ s : State, hostCallOn s .framebuffer = .answered s (.grid s.fb) ∧
    hostCallOn s .redrawPending = .answered s (.flag s.redraw) ∧
    hostCallOn s .clearRedrawPending = .answered { s with redraw := false } .unit) ∧
  (∀ (s t : State) (c : HostCall) (v : HostValue), hostCallOn s c = .answered t v → s.redraw = true → t.redraw = false →
    c = .clearRedrawPending ∨ c = .restart) ∧
  (∀ (s t : State) (c : HostCall) (v : HostValue), hostCallOn s c = .answered t v → t.fb ≠ s.fb → c = .step ∨ c = .restart)

/-- R202, R33 (decision D20, log entry 2; steps counted from reset by log entry 18): `sound_timer_fired()` returns the `beep`
output of the most recent step and changes nothing: 1 only when that step completed with the sound timer going from 1 to 0; 0
before any step. -/
def Obligations.SoundTimerFiredReading : Prop :=
  (∀ s : State, hostCallOn s .soundTimerFired = .answered s (.flag (soundTimerFired s))) ∧
  (∀ s : State, s.lastStep = none → soundTimerFired s = false) ∧
  (∀ s t : State, step s = .next t →
    (soundTimerFired t = true ↔ ∃ unknown, t.lastStep = some ⟨.done, true, unknown⟩) ∧
    (soundTimerFired t = true → t.st = 0)) ∧
  (∀ s t : State, step s = .next t → (∀ x, ¬Decodes s (.setst x)) → soundTimerFired t = true → s.st = 1)
end

