-- ==== Sys2Proof/Laws/Decode.lean ====
section
/-! SUPPORT. The fields of a packed word, one lemma per field and format; the bytes of a word; a word put together again from its
fields. -/

namespace Sys2Proof

/-- Concatenation as arithmetic: the first operand is the more significant one (R7). -/
theorem toNat_append_eq {m n : Nat} (a : BitVec m) (b : BitVec n) : (a ++ b).toNat = a.toNat * 2 ^ n + b.toNat := by
  rw [BitVec.toNat_append, ← Nat.shiftLeft_add_eq_or_of_lt b.isLt, Nat.shiftLeft_eq]

@[simp] theorem regOf_regBits (r : Reg) : regOf (regBits r) = r := rfl

@[simp] theorem regBits_regOf (b : BitVec 4) : regBits (regOf b) = b := rfl

@[simp] theorem toNat_regBits (r : Reg) : (regBits r).toNat = r.val := rfl

theorem toNat_packXYN (f : BitVec 4) (x y : Reg) (n : BitVec 4) :
    (packXYN f x y n).toNat = f.toNat * 4096 + x.val * 256 + y.val * 16 + n.toNat := by
  unfold packXYN
  refine (toNat_append_eq (f ++ regBits x ++ regBits y) n).trans ?_
  rw [toNat_append_eq, toNat_append_eq]
  simp only [toNat_regBits]; omega

theorem toNat_packXKK (f : BitVec 4) (x : Reg) (kk : Byte) :
    (packXKK f x kk).toNat = f.toNat * 4096 + x.val * 256 + kk.toNat := by
  unfold packXKK
  refine (toNat_append_eq (f ++ regBits x) kk).trans ?_
  rw [toNat_append_eq]
  simp only [toNat_regBits]; omega

theorem toNat_packNNN (f : BitVec 4) (nnn : BitVec 12) : (packNNN f nnn).toNat = f.toNat * 4096 + nnn.toNat := by
  unfold packNNN
  exact (toNat_append_eq f nnn).trans (by omega)

/-! ### Fields as numbers (R81) -/

theorem toNat_famOf (w : Word) : (famOf w).toNat = w.toNat / 4096 := by
  have := w.isLt
  simp only [famOf, BitVec.extractLsb'_toNat, Nat.shiftRight_eq_div_pow]; omega

theorem val_xOf (w : Word) : (xOf w).val = w.toNat / 256 % 16 := by
  show (nibble2 w).toNat = _
  simp only [nibble2, BitVec.extractLsb'_toNat, Nat.shiftRight_eq_div_pow]

theorem val_yOf (w : Word) : (yOf w).val = w.toNat / 16 % 16 := by
  show (nibble1 w).toNat = _
  simp only [nibble1, BitVec.extractLsb'_toNat, Nat.shiftRight_eq_div_pow]

theorem toNat_nOf (w : Word) : (nOf w).toNat = w.toNat % 16 := by
  simp only [nOf, BitVec.extractLsb'_toNat, Nat.shiftRight_eq_div_pow, Nat.pow_zero, Nat.div_one]

theorem toNat_kkOf (w : Word) : (kkOf w).toNat = w.toNat % 256 := by
  simp only [kkOf, BitVec.extractLsb'_toNat, Nat.shiftRight_eq_div_pow, Nat.pow_zero, Nat.div_one]

theorem toNat_nnnOf (w : Word) : (nnnOf w).toNat = w.toNat % 4096 := by
  simp only [nnnOf, BitVec.extractLsb'_toNat, Nat.shiftRight_eq_div_pow, Nat.pow_zero, Nat.div_one]

/-! ### The fields of a packed word -/

@[simp] theorem famOf_packXYN (f : BitVec 4) (x y : Reg) (n : BitVec 4) : famOf (packXYN f x y n) = f := by
  refine BitVec.eq_of_toNat_eq ?_
  rw [toNat_famOf, toNat_packXYN]
  have := x.isLt; have := y.isLt; have := n.isLt; omega

@[simp] theorem xOf_packXYN (f : BitVec 4) (x y : Reg) (n : BitVec 4) : xOf (packXYN f x y n) = x := by
  refine Fin.ext ?_
  rw [val_xOf, toNat_packXYN]
  have := x.isLt; have := y.isLt; have := n.isLt; omega

@[simp] theorem yOf_packXYN (f : BitVec 4) (x y : Reg) (n : BitVec 4) : yOf (packXYN f x y n) = y := by
  refine Fin.ext ?_
  rw [val_yOf, toNat_packXYN]
  have := y.isLt; have := n.isLt; omega

@[simp] theorem nOf_packXYN (f : BitVec 4) (x y : Reg) (n : BitVec 4) : nOf (packXYN f x y n) = n := by
  refine BitVec.eq_of_toNat_eq ?_
  rw [toNat_nOf, toNat_packXYN]
  have := n.isLt; omega

@[simp] theorem famOf_packXKK (f : BitVec 4) (x : Reg) (kk : Byte) : famOf (packXKK f x kk) = f := by
  refine BitVec.eq_of_toNat_eq ?_
  rw [toNat_famOf, toNat_packXKK]
  have := x.isLt; have := kk.isLt; omega

@[simp] theorem xOf_packXKK (f : BitVec 4) (x : Reg) (kk : Byte) : xOf (packXKK f x kk) = x := by
  refine Fin.ext ?_
  rw [val_xOf, toNat_packXKK]
  have := x.isLt; have := kk.isLt; omega

@[simp] theorem kkOf_packXKK (f : BitVec 4) (x : Reg) (kk : Byte) : kkOf (packXKK f x kk) = kk := by
  refine BitVec.eq_of_toNat_eq ?_
  rw [toNat_kkOf, toNat_packXKK]
  have := kk.isLt; omega

@[simp] theorem famOf_packNNN (f : BitVec 4) (nnn : BitVec 12) : famOf (packNNN f nnn) = f := by
  refine BitVec.eq_of_toNat_eq ?_
  rw [toNat_famOf, toNat_packNNN]
  have := nnn.isLt; omega

@[simp] theorem nnnOf_packNNN (f : BitVec 4) (nnn : BitVec 12) : nnnOf (packNNN f nnn) = nnn := by
  refine BitVec.eq_of_toNat_eq ?_
  rw [toNat_nnnOf, toNat_packNNN]
  have := nnn.isLt; omega

/-! ### A word from its fields -/

/-- Every word is the packing of its fields in format `XYN`. -/
theorem packXYN_fields (w : Word) : packXYN (famOf w) (xOf w) (yOf w) (nOf w) = w := by
  refine BitVec.eq_of_toNat_eq ?_
  rw [toNat_packXYN, toNat_famOf, val_xOf, val_yOf, toNat_nOf]; omega

/-- Every word is the packing of its fields in format `XKK`. -/
theorem packXKK_fields (w : Word) : packXKK (famOf w) (xOf w) (kkOf w) = w := by
  refine BitVec.eq_of_toNat_eq ?_
  rw [toNat_packXKK, toNat_famOf, val_xOf, toNat_kkOf]; omega

/-- Every word is the packing of its fields in format `NNN`. -/
theorem packNNN_fields (w : Word) : packNNN (famOf w) (nnnOf w) = w := by
  refine BitVec.eq_of_toNat_eq ?_
  rw [toNat_packNNN, toNat_famOf, toNat_nnnOf]; omega

/-! ### The decode procedure, family by family (R84) -/

/-- The family of a word is one of sixteen (R81). -/
theorem fam_cases (f : BitVec 4) :
    f = 0x0 ∨ f = 0x1 ∨ f = 0x2 ∨ f = 0x3 ∨ f = 0x4 ∨ f = 0x5 ∨ f = 0x6 ∨ f = 0x7 ∨
    f = 0x8 ∨ f = 0x9 ∨ f = 0xA ∨ f = 0xB ∨ f = 0xC ∨ f = 0xD ∨ f = 0xE ∨ f = 0xF := by
  revert f; decide

theorem decodeWord_fam0 {op : Word} (h : famOf op = 0x0) :
    decodeWord op = if op = 0x00E0 then .instr .cls else if op = 0x00EE then .instr .ret else .unknown .family0 := by
  simp [decodeWord, h]

theorem decodeWord_fam1 {op : Word} (h : famOf op = 0x1) :
    decodeWord op = .instr (.jp (nnnOf op)) := by
  simp [decodeWord, h]

theorem decodeWord_fam2 {op : Word} (h : famOf op = 0x2) :
    decodeWord op = .instr (.call (nnnOf op)) := by
  simp [decodeWord, h]

theorem decodeWord_fam3 {op : Word} (h : famOf op = 0x3) :
    decodeWord op = .instr (.sek (xOf op) (kkOf op)) := by
  simp [decodeWord, h]

theorem decodeWord_fam4 {op : Word} (h : famOf op = 0x4) :
    decodeWord op = .instr (.snek (xOf op) (kkOf op)) := by
  simp [decodeWord, h]

theorem decodeWord_fam5 {op : Word} (h : famOf op = 0x5) :
    decodeWord op = if nOf op = 0 then .instr (.se (xOf op) (yOf op)) else .unknown .family5 := by
  simp [decodeWord, h]

theorem decodeWord_fam6 {op : Word} (h : famOf op = 0x6) :
    decodeWord op = .instr (.ldk (xOf op) (kkOf op)) := by
  simp [decodeWord, h]

theorem decodeWord_fam7 {op : Word} (h : famOf op = 0x7) :
    decodeWord op = .instr (.addk (xOf op) (kkOf op)) := by
  simp [decodeWord, h]

theorem decodeWord_fam8 {op : Word} (h : famOf op = 0x8) :
    decodeWord op = decodeFamily8 (xOf op) (yOf op) (nOf op) := by
  simp [decodeWord, h]

theorem decodeWord_fam9 {op : Word} (h : famOf op = 0x9) :
    decodeWord op = if nOf op = 0 then .instr (.sne (xOf op) (yOf op)) else .unknown .family9 := by
  simp [decodeWord, h]

theorem decodeWord_famA {op : Word} (h : famOf op = 0xA) :
    decodeWord op = .instr (.ldi (nnnOf op)) := by
  simp [decodeWord, h]

theorem decodeWord_famB {op : Word} (h : famOf op = 0xB) :
    decodeWord op = .instr (.jpv0 (nnnOf op)) := by
  simp [decodeWord, h]

theorem decodeWord_famC {op : Word} (h : famOf op = 0xC) :
    decodeWord op = .instr (.rnd (xOf op) (kkOf op)) := by
  simp [decodeWord, h]

theorem decodeWord_famD {op : Word} (h : famOf op = 0xD) :
    decodeWord op = .instr (.drw (xOf op) (yOf op) (nOf op)) := by
  simp [decodeWord, h]

theorem decodeWord_famE {op : Word} (h : famOf op = 0xE) :
    decodeWord op = decodeFamilyE (xOf op) (kkOf op) := by
  simp [decodeWord, h]

theorem decodeWord_famF {op : Word} (h : famOf op = 0xF) :
    decodeWord op = decodeFamilyF (xOf op) (kkOf op) := by
  simp [decodeWord, h]

/-! ### The bytes of a word (R63) -/

theorem toNat_wordOfBytes (hi lo : Byte) : (wordOfBytes hi lo).toNat = hi.toNat * 256 + lo.toNat :=
  (toNat_append_eq hi lo).trans (by omega)

@[simp] theorem wordOfBytes_hi_lo (w : Word) : wordOfBytes (hiByte w) (loByte w) = w := by
  refine BitVec.eq_of_toNat_eq ?_
  have := w.isLt
  rw [toNat_wordOfBytes]
  simp only [hiByte, loByte, BitVec.extractLsb'_toNat, Nat.shiftRight_eq_div_pow]; omega

end Sys2Proof
end

