-- ==== Sys2Proof/Laws/Display.lean ====
section
/-! SUPPORT. The framebuffer: a pixel after a flip, the blank frame, and what one sprite bit does. -/

namespace Sys2Proof.Machine

/-- A flip changes the pixel it names and no other (R163). -/
theorem pixel_flipPixel (fb : Frame) (r q : Fin 32) (c d : Fin 64) :
    pixel (flipPixel fb r c) q d = if q = r ∧ d = c then !pixel fb r c else pixel fb q d := by
  by_cases hq : q = r
  · subst hq
    by_cases hd : d = c
    · subst hd; simp [pixel, flipPixel]
    · have : (c : Nat) ≠ (d : Nat) := fun e => hd (Fin.ext e.symm)
      simp [pixel, flipPixel, hd, Vector.getElem_set_ne, this]
  · have : (r : Nat) ≠ (q : Nat) := fun e => hq (Fin.ext e.symm)
    simp [pixel, flipPixel, hq, Vector.getElem_set_ne, this]

/-- Every pixel of the cleared framebuffer is off (R160). -/
@[simp] theorem pixel_blankFrame (r : Fin 32) (c : Fin 64) : pixel blankFrame r c = false := by
  simp [pixel, blankFrame]

/-- Two framebuffers with the same pixels are the same framebuffer (R27). -/
theorem frame_ext {f g : Frame} (h : ∀ r c, pixel f r c = pixel g r c) : f = g := by
  refine Vector.ext fun i hi => Vector.ext fun j hj => ?_
  simpa [pixel] using h ⟨i, hi⟩ ⟨j, hj⟩

/-- What one sprite bit does to a pixel (R161, R163): a 1 flips the pixel it falls on, a 0 nothing. -/
theorem pixel_blitBit (row : Byte) (a r : Nat) (u : Blit) (c : Nat) (q : Fin 32) (d : Fin 64) :
    pixel (blitBit row a r u c).fb q d =
      (pixel u.fb q d ^^ (row.getLsbD (7 - c) && decide (q = rowOf r ∧ d = colOf (a + c)))) := by
  unfold blitBit
  split <;> rename_i h
  · simp only [h, pixel_flipPixel, Bool.true_and]
    split <;> rename_i hq
    · simp [hq.1, hq.2]
    · simp [hq]
  · simp [h]

/-- What one sprite bit does to the collision (R163): a 1 on a lit pixel sets it. -/
theorem hit_blitBit (row : Byte) (a r : Nat) (u : Blit) (c : Nat) :
    (blitBit row a r u c).hit = (u.hit || (row.getLsbD (7 - c) && pixel u.fb (rowOf r) (colOf (a + c)))) := by
  unfold blitBit
  split <;> rename_i h <;> simp [h]

/-! ### The blit as one fold over the bits of the sprite -/

/-- One sprite bit with the pixel it falls on. -/
abbrev SpriteBit := Bool × Fin 32 × Fin 64

/-- The blit unit on one sprite bit. -/
def blitOne (u : Blit) (e : SpriteBit) : Blit :=
  if e.1 then ⟨flipPixel u.fb e.2.1 e.2.2, u.hit || pixel u.fb e.2.1 e.2.2⟩ else u

/-- The bits of one sprite row drawn at column `a`, row `r`. -/
def rowBits (a r : Nat) (row : Byte) : List SpriteBit :=
  (List.range 8).map fun c => (row.getLsbD (7 - c), rowOf r, colOf (a + c))

/-- The bits of a sprite drawn at column `a`, row `r`. -/
def spriteBits (a : Nat) : Nat → List Byte → List SpriteBit
  | _, [] => []
  | r, row :: rows => rowBits a r row ++ spriteBits a (r + 1) rows

theorem blitRow_eq_foldl (row : Byte) (a r : Nat) (u : Blit) : blitRow row a r u = (rowBits a r row).foldl blitOne u := by
  rw [rowBits, List.foldl_map]; rfl

theorem blitRows_eq_foldl (a r : Nat) (rows : List Byte) (u : Blit) :
    blitRows a r rows u = (spriteBits a r rows).foldl blitOne u := by
  induction rows generalizing r u with
  | nil => rfl
  | cons row rows ih => rw [blitRows, ih, blitRow_eq_foldl, spriteBits, List.foldl_append]

/-- Bits that fall on different pixels do not meet: each flips its own pixel, and the collision is with the pixels as they were. -/
theorem foldl_blitOne (L : List SpriteBit) (hn : (L.map (·.2)).Nodup) (u : Blit) :
    (∀ q d, pixel (L.foldl blitOne u).fb q d = (pixel u.fb q d ^^ decide ((true, q, d) ∈ L))) ∧
    (L.foldl blitOne u).hit = (u.hit || L.any fun e => e.1 && pixel u.fb e.2.1 e.2.2) := by
  induction L generalizing u with
  | nil => simp
  | cons e L ih =>
    obtain ⟨b, r, c⟩ := e
    simp only [List.map_cons, List.nodup_cons] at hn
    obtain ⟨hne, hn⟩ := hn
    obtain ⟨i1, i2⟩ := ih hn (blitOne u (b, r, c))
    have hmem : ∀ b', (b', r, c) ∉ L := fun b' hb => hne (List.mem_map.2 ⟨_, hb, rfl⟩)
    cases b with
    | false =>
      simp only [blitOne, Bool.false_eq_true, if_false] at i1 i2
      simp only [List.foldl_cons, blitOne, Bool.false_eq_true, if_false]
      refine ⟨fun q d => ?_, ?_⟩
      · rw [i1]; simp
      · rw [i2]; simp
    | true =>
      simp only [blitOne, if_true] at i1 i2
      simp only [List.foldl_cons, blitOne, if_true]
      refine ⟨fun q d => ?_, ?_⟩
      · rw [i1, pixel_flipPixel]
        by_cases hq : q = r ∧ d = c
        · obtain ⟨rfl, rfl⟩ := hq
          simp [hmem]
        · have : ¬(q = r ∧ d = c) := hq
          simp [hq]
      · rw [i2]
        have : (L.any fun e => e.1 && pixel (flipPixel u.fb r c) e.2.1 e.2.2) = L.any fun e => e.1 && pixel u.fb e.2.1 e.2.2 := by
          rw [Bool.eq_iff_iff]
          simp only [List.any_eq_true, Bool.and_eq_true]
          have aux : ∀ e ∈ L, pixel (flipPixel u.fb r c) e.2.1 e.2.2 = pixel u.fb e.2.1 e.2.2 := by
            rintro ⟨b, q, d⟩ he
            rw [pixel_flipPixel, if_neg]
            rintro ⟨h1, h2⟩
            simp only at h1 h2
            subst h1 h2; exact hmem _ he
          exact ⟨fun ⟨e, he, h1, h2⟩ => ⟨e, he, h1, (aux e he) ▸ h2⟩, fun ⟨e, he, h1, h2⟩ => ⟨e, he, h1, (aux e he).symm ▸ h2⟩⟩
        rw [this]; simp [Bool.or_assoc]

/-- The bits of a sprite: one for each row `k` and column `c` (R162). -/
theorem mem_spriteBits {a r : Nat} {rows : List Byte} {e : SpriteBit} : e ∈ spriteBits a r rows ↔
    ∃ k c, k < rows.length ∧ c < 8 ∧ e = ((rows.getD k 0).getLsbD (7 - c), rowOf (r + k), colOf (a + c)) := by
  induction rows generalizing r with
  | nil => simp [spriteBits]
  | cons row rows ih =>
    simp only [spriteBits, List.mem_append, ih]
    constructor
    · rintro (h | ⟨k, c, hk, hc, rfl⟩)
      · simp only [rowBits, List.mem_map, List.mem_range] at h
        obtain ⟨c, hc, rfl⟩ := h
        exact ⟨0, c, by simp, hc, by simp⟩
      · exact ⟨k + 1, c, by simpa using hk, hc, by rw [List.getD_cons_succ]; congr 3; omega⟩
    · rintro ⟨k, c, hk, hc, rfl⟩
      cases k with
      | zero => left; simp only [rowBits, List.mem_map, List.mem_range]; exact ⟨c, hc, by simp⟩
      | succ k => right; exact ⟨k, c, by simpa using hk, hc, by rw [List.getD_cons_succ]; congr 3; omega⟩

/-- No two bits of a sprite of at most 32 rows fall on one pixel. -/
theorem nodup_spriteBits {a r : Nat} {rows : List Byte} (h : rows.length ≤ 32) : ((spriteBits a r rows).map (·.2)).Nodup := by
  induction rows generalizing r with
  | nil => simp [spriteBits]
  | cons row rows ih =>
    simp only [List.length_cons] at h
    rw [spriteBits, List.map_append, List.nodup_append]
    refine ⟨?_, ih (by omega), ?_⟩
    · rw [rowBits, List.map_map]
      refine List.Nodup.map_on ?_ List.nodup_range
      intro c hc d hd e
      simp [colOf] at hc hd e; omega
    · intro p hp q hq
      simp only [rowBits, List.map_map, List.mem_map, List.mem_range] at hp
      obtain ⟨c, hc, rfl⟩ := hp
      simp only [List.mem_map] at hq
      obtain ⟨e, he, rfl⟩ := hq
      rw [mem_spriteBits] at he
      obtain ⟨k, d, hk, hd, rfl⟩ := he
      intro e
      simp [rowOf] at e
      omega

/-- Everything the blit of at most 32 rows does (R161 to R163): it flips the pixels under the sprite's set bits, leaves the others,
and collides when some set bit fell on a lit pixel. -/
theorem blit_spec (fb : Frame) (a b : Byte) (rows : List Byte) (h : rows.length ≤ 32) :
    (∀ q d, pixel (blit fb a b rows).fb q d =
      (pixel fb q d ^^ decide ((true, q, d) ∈ spriteBits a.toNat b.toNat rows))) ∧
    (blit fb a b rows).hit = (spriteBits a.toNat b.toNat rows).any fun e => e.1 && pixel fb e.2.1 e.2.2 := by
  have := foldl_blitOne (spriteBits a.toNat b.toNat rows) (nodup_spriteBits h) ⟨fb, false⟩
  rw [← blitRows_eq_foldl] at this
  simpa [blit] using this

end Sys2Proof.Machine
end

