-- ==== Sys2Proof/Laws/Memory.lean ====
section
/-! SUPPORT. The laws of memory: a read after a write, runs of bytes, and that every memory operation keeps the canonical form. -/

namespace Sys2Proof.Machine

@[simp] theorem readByte_nil (a : Nat) : readByte [] a = unlisted a := rfl

/-- An address below every listed one reads as its reset contents. -/
theorem readByte_of_wfFrom {m : Memory} {lo a : Nat} (h : memoryWfFrom lo m = true) (ha : a < lo) :
    readByte m a = unlisted a := by
  induction m generalizing lo with
  | nil => rfl
  | cons c m ih =>
    obtain ⟨b, w⟩ := c
    simp only [memoryWfFrom, Bool.and_eq_true, decide_eq_true_eq] at h
    have hne : a ≠ b := by omega
    simpa [readByte, hne] using ih h.2 (by omega)

/-- Read after write (R68), in memory of canonical form. -/
theorem readByte_writeByte {m : Memory} {lo : Nat} (h : memoryWfFrom lo m = true) (a a' : Nat) (v : Byte) :
    readByte (writeByte m a v) a' = if a' = a then v else readByte m a' := by
  induction m generalizing lo with
  | nil => by_cases hv : v = unlisted a <;> by_cases ha : a' = a <;> simp_all [writeByte, readByte]
  | cons c m ih =>
    obtain ⟨b, w⟩ := c
    simp only [memoryWfFrom, Bool.and_eq_true, decide_eq_true_eq] at h
    have below : ∀ x, x ≤ b → readByte m x = unlisted x := fun x hx => readByte_of_wfFrom h.2 (by omega)
    rcases Nat.lt_trichotomy a b with hab | hab | hab
    · have hne : a ≠ b := by omega
      have := below a (by omega)
      by_cases hv : v = unlisted a <;> by_cases ha : a' = a <;> simp_all [writeByte, readByte]
    · subst hab
      have := below a (Nat.le_refl a)
      by_cases hv : v = unlisted a <;> by_cases ha : a' = a <;> simp_all [writeByte, readByte]
    · have h1 : ¬ a < b := by omega
      have h2 : a ≠ b := by omega
      simp only [writeByte, h1, h2, if_false, readByte, ih h.2]
      by_cases ha : a' = a
      · simp [ha, h2]
      · simp [ha]

/-- A write keeps the canonical form from any address at or below the one written. -/
theorem writeByte_wfFrom {m : Memory} {lo a : Nat} (h : memoryWfFrom lo m = true) (hlo : lo ≤ a) (ha : a < Config.memSize)
    (v : Byte) : memoryWfFrom lo (writeByte m a v) = true := by
  induction m generalizing lo with
  | nil => by_cases hv : v = unlisted a <;> simp_all [writeByte, memoryWfFrom]
  | cons c m ih =>
    obtain ⟨b, w⟩ := c
    simp only [memoryWfFrom, Bool.and_eq_true, decide_eq_true_eq] at h
    have weaken : ∀ {l l' : Nat} {m : Memory}, l' ≤ l → memoryWfFrom l m = true → memoryWfFrom l' m = true := by
      intro l l' m hl hm
      cases m with
      | nil => rfl
      | cons c m =>
        simp only [memoryWfFrom, Bool.and_eq_true, decide_eq_true_eq] at hm ⊢
        exact ⟨⟨⟨by omega, hm.1.1.2⟩, hm.1.2⟩, hm.2⟩
    rcases Nat.lt_trichotomy a b with hab | hab | hab
    · by_cases hv : v = unlisted a
      · simp only [writeByte, hab, hv, if_true, memoryWfFrom, Bool.and_eq_true, decide_eq_true_eq]
        exact h
      · simp only [writeByte, hab, hv, if_true, if_false, memoryWfFrom, Bool.and_eq_true, decide_eq_true_eq]
        exact ⟨⟨⟨hlo, ha⟩, hv⟩, ⟨⟨by omega, h.1.1.2⟩, h.1.2⟩, h.2⟩
    · subst hab
      have h1 : ¬ a < a := by omega
      by_cases hv : v = unlisted a
      · simp only [writeByte, h1, hv, if_true, if_false]
        exact weaken (by omega) h.2
      · simp only [writeByte, h1, hv, if_true, if_false, memoryWfFrom, Bool.and_eq_true, decide_eq_true_eq]
        exact ⟨⟨⟨hlo, ha⟩, hv⟩, h.2⟩
    · have h1 : ¬ a < b := by omega
      have h2 : a ≠ b := by omega
      simp only [writeByte, h1, h2, if_false, memoryWfFrom, Bool.and_eq_true, decide_eq_true_eq]
      exact ⟨⟨⟨h.1.1.1, h.1.1.2⟩, h.1.2⟩, ih h.2 (by omega)⟩

/-- A write at an address of the memory keeps the canonical form. -/
theorem writeByte_wf {m : Memory} {a : Nat} (h : Memory.wf m = true) (ha : a < Config.memSize) (v : Byte) :
    Memory.wf (writeByte m a v) = true := writeByte_wfFrom h (Nat.zero_le a) ha v

/-- A run of bytes that ends within the memory keeps the canonical form. -/
theorem writeBytes_wf {m : Memory} {a : Nat} {vs : List Byte} (h : Memory.wf m = true) (ha : a + vs.length ≤ Config.memSize) :
    Memory.wf (writeBytes m a vs) = true := by
  induction vs generalizing m a with
  | nil => exact h
  | cons v vs ih =>
    simp only [List.length_cons] at ha
    exact ih (writeByte_wf h (by omega) v) (by omega)

/-- What a byte reads as after a run of bytes is stored: byte `k` of the run at `a + k`, and outside it what it was (R65). -/
theorem readByte_writeBytes {m : Memory} {a : Nat} {vs : List Byte} (h : Memory.wf m = true)
    (ha : a + vs.length ≤ Config.memSize) (a' : Nat) :
    readByte (writeBytes m a vs) a' = if a ≤ a' ∧ a' < a + vs.length then vs.getD (a' - a) 0 else readByte m a' := by
  induction vs generalizing m a with
  | nil =>
    have : ¬(a ≤ a' ∧ a' < a + ([] : List Byte).length) := by simp
    rw [if_neg this]; rfl
  | cons v vs ih =>
    simp only [List.length_cons] at ha
    rw [writeBytes, ih (writeByte_wf h (by omega) v) (by omega), readByte_writeByte h]
    by_cases h1 : a' = a
    · subst h1; simp
    · by_cases h2 : a + 1 ≤ a' ∧ a' < a + 1 + vs.length
      · have h3 : a ≤ a' ∧ a' < a + (v :: vs).length := by simp only [List.length_cons]; omega
        obtain ⟨k, hk⟩ : ∃ k, a' - a = k + 1 := ⟨a' - a - 1, by omega⟩
        have hk' : a' - (a + 1) = k := by omega
        rw [if_pos h2, if_pos h3, hk, hk']
        simp
      · have h3 : ¬(a ≤ a' ∧ a' < a + (v :: vs).length) := by simp only [List.length_cons]; omega
        rw [if_neg h2, if_neg h3, if_neg h1]

/-- Bytes outside a run are left alone, whatever form the memory has where the run is stored elsewhere. -/
theorem readByte_writeByte_ne (m : Memory) {a a' : Nat} (ha : a' ≠ a) (v : Byte) :
    readByte (writeByte m a v) a' = readByte m a' := by
  induction m with
  | nil => by_cases hv : v = unlisted a <;> simp [writeByte, readByte, hv, ha]
  | cons c m ih =>
    obtain ⟨b, w⟩ := c
    rcases Nat.lt_trichotomy a b with hab | hab | hab
    · by_cases hv : v = unlisted a <;> simp [writeByte, readByte, hab, hv, ha]
    · subst hab
      by_cases hv : v = unlisted a <;> simp [writeByte, readByte, hv, ha]
    · have h1 : ¬ a < b := by omega
      have h2 : a ≠ b := by omega
      simp [writeByte, readByte, h1, h2, ih]

/-- Every byte outside a stored run reads as before, in every memory. -/
theorem readByte_writeBytes_outside (m : Memory) {a a' : Nat} {vs : List Byte} (ha : a' < a ∨ a + vs.length ≤ a') :
    readByte (writeBytes m a vs) a' = readByte m a' := by
  induction vs generalizing m a with
  | nil => rfl
  | cons v vs ih =>
    simp only [List.length_cons] at ha
    rw [writeBytes, ih (writeByte m a v) (by omega), readByte_writeByte_ne m (by omega)]

@[simp] theorem length_readBytes (m : Memory) (a n : Nat) : (readBytes m a n).length = n := by
  induction n generalizing a with
  | zero => rfl
  | succ n ih => simp [readBytes, ih]

/-- Byte `k` of a run read from `a` is the byte at `a + k` (R65). -/
theorem getD_readBytes (m : Memory) (a : Nat) {n k : Nat} (hk : k < n) (d : Byte) :
    (readBytes m a n).getD k d = readByte m (a + k) := by
  induction n generalizing a k with
  | zero => omega
  | succ n ih =>
    cases k with
    | zero => simp [readBytes]
    | succ k =>
      rw [readBytes, List.getD_cons_succ, ih (a + 1) (by omega)]
      congr 1; omega

/-- The empty memory has the canonical form. -/
theorem nil_wf : Memory.wf [] = true := rfl

/-- A FONT has 80 bytes (R6). -/
theorem fontList_length (font : Config.Font) : font.toList.length = 80 := by simp

/-- The memory reset leaves has the canonical form under every FONT. -/
theorem resetMemory_wf (font : Config.Font) : Memory.wf (resetMemory font) = true :=
  writeBytes_wf nil_wf (by simp)

/-- Above the font an unlisted address reads as 0. -/
theorem unlisted_of_le {a : Nat} (h : 80 ≤ a) : unlisted a = 0 := by
  unfold unlisted
  have hl : font.length = 80 := rfl
  rw [List.getD_eq_getElem?_getD, List.getElem?_eq_none (by omega), Option.getD_none]

/-- What reset leaves, under every FONT (R61, R220). -/
@[simp] theorem readByte_resetMemory (font : Config.Font) (a : Nat) : readByte (resetMemory font) a = resetByte font a := by
  have hl := fontList_length font
  rw [resetMemory, readByte_writeBytes nil_wf (by simp), resetByte]
  split
  · simp
  · rename_i h
    have h80 : 80 ≤ a := by omega
    rw [readByte_nil, unlisted_of_le h80, List.getD_eq_getElem?_getD, List.getElem?_eq_none (by omega), Option.getD_none]

/-- Above the font reset leaves zeros. -/
theorem resetByte_of_le (font : Config.Font) {a : Nat} (h : 80 ≤ a) : resetByte font a = 0 := by
  have hl := fontList_length font
  rw [resetByte, List.getD_eq_getElem?_getD, List.getElem?_eq_none (by omega), Option.getD_none]

/-- With the default FONT reset leaves nothing listed. -/
theorem resetMemory_default : resetMemory defaultFont = [] := by decide

/-- An unlisted address reads as reset leaves it under the default FONT. -/
theorem unlisted_eq (a : Nat) : unlisted a = resetByte defaultFont a := rfl

/-- When the read check finds no fault. -/
theorem readCheck_eq_none {a n : Nat} : readCheck a n = none ↔ n = 0 ∨ a + n ≤ Config.memSize := by
  unfold readCheck; split <;> simp <;> omega

/-- The read check finds no other fault than `AddressOutOfRange` (R66). -/
theorem readCheck_eq_some {a n : Nat} {k : Fault} :
    readCheck a n = some k ↔ k = .addressOutOfRange ∧ 0 < n ∧ Config.memSize < a + n := by
  unfold readCheck
  split
  · simp only [Option.some.injEq, Config.memSize]
    constructor
    · rintro rfl; exact ⟨rfl, by omega, by omega⟩
    · exact fun h => h.1.symm
  · simp only [Config.memSize, false_iff, reduceCtorEq]; omega

/-- When the store check finds no fault, for a store of at least one byte. -/
theorem writeCheck_eq_none {a n : Nat} (hn : 0 < n) :
    writeCheck a n = none ↔ Config.progBase ≤ a ∧ a + n ≤ Config.memSize := by
  unfold writeCheck; split
  · simp only [reduceCtorEq, false_iff, Config.progBase, Config.memSize]; omega
  · split <;> simp only [reduceCtorEq, false_iff, true_iff, Config.progBase, Config.memSize] <;>
      simp only [Config.progBase] at * <;> omega

end Sys2Proof.Machine
end

