-- ==== Sys2Proof/Laws/State.lean ====
section
/-! SUPPORT. One lemma per field per update of the state, true by rfl, so that no later proof unfolds a record update; and what the
register accessors say of each other. -/

namespace Sys2Proof.Machine

/-! ### `setV` -/

@[simp] theorem setV_v (s : State) (r : Reg) (b : Byte) : (setV s r b).v = s.v.set r b := rfl
@[simp] theorem setV_index (s : State) (r : Reg) (b : Byte) : (setV s r b).index = s.index := rfl
@[simp] theorem setV_pc (s : State) (r : Reg) (b : Byte) : (setV s r b).pc = s.pc := rfl
@[simp] theorem setV_sp (s : State) (r : Reg) (b : Byte) : (setV s r b).sp = s.sp := rfl
@[simp] theorem setV_stack (s : State) (r : Reg) (b : Byte) : (setV s r b).stack = s.stack := rfl
@[simp] theorem setV_dt (s : State) (r : Reg) (b : Byte) : (setV s r b).dt = s.dt := rfl
@[simp] theorem setV_st (s : State) (r : Reg) (b : Byte) : (setV s r b).st = s.st := rfl
@[simp] theorem setV_fb (s : State) (r : Reg) (b : Byte) : (setV s r b).fb = s.fb := rfl
@[simp] theorem setV_redraw (s : State) (r : Reg) (b : Byte) : (setV s r b).redraw = s.redraw := rfl
@[simp] theorem setV_keys (s : State) (r : Reg) (b : Byte) : (setV s r b).keys = s.keys := rfl
@[simp] theorem setV_mem (s : State) (r : Reg) (b : Byte) : (setV s r b).mem = s.mem := rfl
@[simp] theorem setV_fault (s : State) (r : Reg) (b : Byte) : (setV s r b).fault = s.fault := rfl
@[simp] theorem setV_lastStep (s : State) (r : Reg) (b : Byte) : (setV s r b).lastStep = s.lastStep := rfl
@[simp] theorem setV_draws (s : State) (r : Reg) (b : Byte) : (setV s r b).draws = s.draws := rfl
@[simp] theorem setV_params (s : State) (r : Reg) (b : Byte) : (setV s r b).params = s.params := rfl

/-! ### `advance` -/

@[simp] theorem advance_v (s : State) (n : Word) : (advance s n).v = s.v := rfl
@[simp] theorem advance_index (s : State) (n : Word) : (advance s n).index = s.index := rfl
@[simp] theorem advance_pc (s : State) (n : Word) : (advance s n).pc = s.pc + n := rfl
@[simp] theorem advance_sp (s : State) (n : Word) : (advance s n).sp = s.sp := rfl
@[simp] theorem advance_stack (s : State) (n : Word) : (advance s n).stack = s.stack := rfl
@[simp] theorem advance_dt (s : State) (n : Word) : (advance s n).dt = s.dt := rfl
@[simp] theorem advance_st (s : State) (n : Word) : (advance s n).st = s.st := rfl
@[simp] theorem advance_fb (s : State) (n : Word) : (advance s n).fb = s.fb := rfl
@[simp] theorem advance_redraw (s : State) (n : Word) : (advance s n).redraw = s.redraw := rfl
@[simp] theorem advance_keys (s : State) (n : Word) : (advance s n).keys = s.keys := rfl
@[simp] theorem advance_mem (s : State) (n : Word) : (advance s n).mem = s.mem := rfl
@[simp] theorem advance_fault (s : State) (n : Word) : (advance s n).fault = s.fault := rfl
@[simp] theorem advance_lastStep (s : State) (n : Word) : (advance s n).lastStep = s.lastStep := rfl
@[simp] theorem advance_draws (s : State) (n : Word) : (advance s n).draws = s.draws := rfl
@[simp] theorem advance_params (s : State) (n : Word) : (advance s n).params = s.params := rfl

/-! ### `skipWhen` -/

@[simp] theorem skipWhen_v (s : State) (c : Bool) : (skipWhen c s).v = s.v := rfl
@[simp] theorem skipWhen_index (s : State) (c : Bool) : (skipWhen c s).index = s.index := rfl
@[simp] theorem skipWhen_pc (s : State) (c : Bool) : (skipWhen c s).pc = s.pc + (if c then 4 else 2) := rfl
@[simp] theorem skipWhen_sp (s : State) (c : Bool) : (skipWhen c s).sp = s.sp := rfl
@[simp] theorem skipWhen_stack (s : State) (c : Bool) : (skipWhen c s).stack = s.stack := rfl
@[simp] theorem skipWhen_dt (s : State) (c : Bool) : (skipWhen c s).dt = s.dt := rfl
@[simp] theorem skipWhen_st (s : State) (c : Bool) : (skipWhen c s).st = s.st := rfl
@[simp] theorem skipWhen_fb (s : State) (c : Bool) : (skipWhen c s).fb = s.fb := rfl
@[simp] theorem skipWhen_redraw (s : State) (c : Bool) : (skipWhen c s).redraw = s.redraw := rfl
@[simp] theorem skipWhen_keys (s : State) (c : Bool) : (skipWhen c s).keys = s.keys := rfl
@[simp] theorem skipWhen_mem (s : State) (c : Bool) : (skipWhen c s).mem = s.mem := rfl
@[simp] theorem skipWhen_fault (s : State) (c : Bool) : (skipWhen c s).fault = s.fault := rfl
@[simp] theorem skipWhen_lastStep (s : State) (c : Bool) : (skipWhen c s).lastStep = s.lastStep := rfl
@[simp] theorem skipWhen_draws (s : State) (c : Bool) : (skipWhen c s).draws = s.draws := rfl
@[simp] theorem skipWhen_params (s : State) (c : Bool) : (skipWhen c s).params = s.params := rfl

/-! ### `tick` -/

@[simp] theorem tick_v (s : State) : (tick s).v = s.v := rfl
@[simp] theorem tick_index (s : State) : (tick s).index = s.index := rfl
@[simp] theorem tick_pc (s : State) : (tick s).pc = s.pc := rfl
@[simp] theorem tick_sp (s : State) : (tick s).sp = s.sp := rfl
@[simp] theorem tick_stack (s : State) : (tick s).stack = s.stack := rfl
@[simp] theorem tick_dt (s : State) : (tick s).dt = countDown s.dt := rfl
@[simp] theorem tick_st (s : State) : (tick s).st = countDown s.st := rfl
@[simp] theorem tick_fb (s : State) : (tick s).fb = s.fb := rfl
@[simp] theorem tick_redraw (s : State) : (tick s).redraw = s.redraw := rfl
@[simp] theorem tick_keys (s : State) : (tick s).keys = s.keys := rfl
@[simp] theorem tick_mem (s : State) : (tick s).mem = s.mem := rfl
@[simp] theorem tick_fault (s : State) : (tick s).fault = s.fault := rfl
@[simp] theorem tick_lastStep (s : State) : (tick s).lastStep = s.lastStep := rfl
@[simp] theorem tick_draws (s : State) : (tick s).draws = s.draws := rfl
@[simp] theorem tick_params (s : State) : (tick s).params = s.params := rfl

/-! ### `setFirstRegs` -/

@[simp] theorem setFirstRegs_v (s : State) (bs : List Byte) : (setFirstRegs s bs).v = setRegsFrom s.v 0 bs := rfl
@[simp] theorem setFirstRegs_index (s : State) (bs : List Byte) : (setFirstRegs s bs).index = s.index := rfl
@[simp] theorem setFirstRegs_pc (s : State) (bs : List Byte) : (setFirstRegs s bs).pc = s.pc := rfl
@[simp] theorem setFirstRegs_sp (s : State) (bs : List Byte) : (setFirstRegs s bs).sp = s.sp := rfl
@[simp] theorem setFirstRegs_stack (s : State) (bs : List Byte) : (setFirstRegs s bs).stack = s.stack := rfl
@[simp] theorem setFirstRegs_dt (s : State) (bs : List Byte) : (setFirstRegs s bs).dt = s.dt := rfl
@[simp] theorem setFirstRegs_st (s : State) (bs : List Byte) : (setFirstRegs s bs).st = s.st := rfl
@[simp] theorem setFirstRegs_fb (s : State) (bs : List Byte) : (setFirstRegs s bs).fb = s.fb := rfl
@[simp] theorem setFirstRegs_redraw (s : State) (bs : List Byte) : (setFirstRegs s bs).redraw = s.redraw := rfl
@[simp] theorem setFirstRegs_keys (s : State) (bs : List Byte) : (setFirstRegs s bs).keys = s.keys := rfl
@[simp] theorem setFirstRegs_mem (s : State) (bs : List Byte) : (setFirstRegs s bs).mem = s.mem := rfl
@[simp] theorem setFirstRegs_fault (s : State) (bs : List Byte) : (setFirstRegs s bs).fault = s.fault := rfl
@[simp] theorem setFirstRegs_lastStep (s : State) (bs : List Byte) : (setFirstRegs s bs).lastStep = s.lastStep := rfl
@[simp] theorem setFirstRegs_draws (s : State) (bs : List Byte) : (setFirstRegs s bs).draws = s.draws := rfl
@[simp] theorem setFirstRegs_params (s : State) (bs : List Byte) : (setFirstRegs s bs).params = s.params := rfl

/-! ### `placeWord` -/

@[simp] theorem placeWord_v (s : State) (op : Word) : (placeWord s op).v = s.v := rfl
@[simp] theorem placeWord_index (s : State) (op : Word) : (placeWord s op).index = s.index := rfl
@[simp] theorem placeWord_pc (s : State) (op : Word) : (placeWord s op).pc = s.pc := rfl
@[simp] theorem placeWord_sp (s : State) (op : Word) : (placeWord s op).sp = s.sp := rfl
@[simp] theorem placeWord_stack (s : State) (op : Word) : (placeWord s op).stack = s.stack := rfl
@[simp] theorem placeWord_dt (s : State) (op : Word) : (placeWord s op).dt = s.dt := rfl
@[simp] theorem placeWord_st (s : State) (op : Word) : (placeWord s op).st = s.st := rfl
@[simp] theorem placeWord_fb (s : State) (op : Word) : (placeWord s op).fb = s.fb := rfl
@[simp] theorem placeWord_redraw (s : State) (op : Word) : (placeWord s op).redraw = s.redraw := rfl
@[simp] theorem placeWord_keys (s : State) (op : Word) : (placeWord s op).keys = s.keys := rfl
@[simp] theorem placeWord_mem (s : State) (op : Word) : (placeWord s op).mem = writeBytes s.mem s.pc.toNat [hiByte op, loByte op] := rfl
@[simp] theorem placeWord_fault (s : State) (op : Word) : (placeWord s op).fault = s.fault := rfl
@[simp] theorem placeWord_lastStep (s : State) (op : Word) : (placeWord s op).lastStep = s.lastStep := rfl
@[simp] theorem placeWord_draws (s : State) (op : Word) : (placeWord s op).draws = s.draws := rfl
@[simp] theorem placeWord_params (s : State) (op : Word) : (placeWord s op).params = s.params := rfl

/-! ### `loadImage` -/

@[simp] theorem loadImage_v (s : State) (bs : Image) : (loadImage s bs).v = s.v := rfl
@[simp] theorem loadImage_index (s : State) (bs : Image) : (loadImage s bs).index = s.index := rfl
@[simp] theorem loadImage_pc (s : State) (bs : Image) : (loadImage s bs).pc = s.pc := rfl
@[simp] theorem loadImage_sp (s : State) (bs : Image) : (loadImage s bs).sp = s.sp := rfl
@[simp] theorem loadImage_stack (s : State) (bs : Image) : (loadImage s bs).stack = s.stack := rfl
@[simp] theorem loadImage_dt (s : State) (bs : Image) : (loadImage s bs).dt = s.dt := rfl
@[simp] theorem loadImage_st (s : State) (bs : Image) : (loadImage s bs).st = s.st := rfl
@[simp] theorem loadImage_fb (s : State) (bs : Image) : (loadImage s bs).fb = s.fb := rfl
@[simp] theorem loadImage_redraw (s : State) (bs : Image) : (loadImage s bs).redraw = s.redraw := rfl
@[simp] theorem loadImage_keys (s : State) (bs : Image) : (loadImage s bs).keys = s.keys := rfl
@[simp] theorem loadImage_mem (s : State) (bs : Image) : (loadImage s bs).mem = writeBytes s.mem Config.progBase bs := rfl
@[simp] theorem loadImage_fault (s : State) (bs : Image) : (loadImage s bs).fault = s.fault := rfl
@[simp] theorem loadImage_lastStep (s : State) (bs : Image) : (loadImage s bs).lastStep = s.lastStep := rfl
@[simp] theorem loadImage_draws (s : State) (bs : Image) : (loadImage s bs).draws = s.draws := rfl
@[simp] theorem loadImage_params (s : State) (bs : Image) : (loadImage s bs).params = s.params := rfl

/-! ### `setFlagThenResult` -/

@[simp] theorem setFlagThenResult_v (s : State) (f : Byte) (x : Reg) (b : Byte) : (setFlagThenResult s f x b).v = (s.v.set flagReg f).set x b := rfl
@[simp] theorem setFlagThenResult_index (s : State) (f : Byte) (x : Reg) (b : Byte) : (setFlagThenResult s f x b).index = s.index := rfl
@[simp] theorem setFlagThenResult_pc (s : State) (f : Byte) (x : Reg) (b : Byte) : (setFlagThenResult s f x b).pc = s.pc := rfl
@[simp] theorem setFlagThenResult_sp (s : State) (f : Byte) (x : Reg) (b : Byte) : (setFlagThenResult s f x b).sp = s.sp := rfl
@[simp] theorem setFlagThenResult_stack (s : State) (f : Byte) (x : Reg) (b : Byte) : (setFlagThenResult s f x b).stack = s.stack := rfl
@[simp] theorem setFlagThenResult_dt (s : State) (f : Byte) (x : Reg) (b : Byte) : (setFlagThenResult s f x b).dt = s.dt := rfl
@[simp] theorem setFlagThenResult_st (s : State) (f : Byte) (x : Reg) (b : Byte) : (setFlagThenResult s f x b).st = s.st := rfl
@[simp] theorem setFlagThenResult_fb (s : State) (f : Byte) (x : Reg) (b : Byte) : (setFlagThenResult s f x b).fb = s.fb := rfl
@[simp] theorem setFlagThenResult_redraw (s : State) (f : Byte) (x : Reg) (b : Byte) : (setFlagThenResult s f x b).redraw = s.redraw := rfl
@[simp] theorem setFlagThenResult_keys (s : State) (f : Byte) (x : Reg) (b : Byte) : (setFlagThenResult s f x b).keys = s.keys := rfl
@[simp] theorem setFlagThenResult_mem (s : State) (f : Byte) (x : Reg) (b : Byte) : (setFlagThenResult s f x b).mem = s.mem := rfl
@[simp] theorem setFlagThenResult_fault (s : State) (f : Byte) (x : Reg) (b : Byte) : (setFlagThenResult s f x b).fault = s.fault := rfl
@[simp] theorem setFlagThenResult_lastStep (s : State) (f : Byte) (x : Reg) (b : Byte) : (setFlagThenResult s f x b).lastStep = s.lastStep := rfl
@[simp] theorem setFlagThenResult_draws (s : State) (f : Byte) (x : Reg) (b : Byte) : (setFlagThenResult s f x b).draws = s.draws := rfl
@[simp] theorem setFlagThenResult_params (s : State) (f : Byte) (x : Reg) (b : Byte) : (setFlagThenResult s f x b).params = s.params := rfl

/-! ### The register accessors -/

@[simp] theorem getV_advance (s : State) (n : Word) (r : Reg) : getV (advance s n) r = getV s r := rfl

@[simp] theorem getV_skipWhen (s : State) (c : Bool) (r : Reg) : getV (skipWhen c s) r = getV s r := rfl

@[simp] theorem getV_tick (s : State) (r : Reg) : getV (tick s) r = getV s r := rfl

/-- A state with the registers of `s` reads as `s` does. -/
theorem getV_congr {s t : State} (h : t.v = s.v) (r : Reg) : getV t r = getV s r := by simp [getV, h]

/-- `V[q]` after `V[r] <- b`. -/
theorem getV_setV (s : State) (r q : Reg) (b : Byte) : getV (setV s r b) q = if q = r then b else getV s q := by
  by_cases h : q = r
  · subst h; simp [getV, setV]
  · have : (r : Nat) ≠ (q : Nat) := fun e => h (Fin.ext e.symm)
    simp [getV, setV, h, Vector.getElem_set_ne, this]

@[simp] theorem getV_setV_same (s : State) (r : Reg) (b : Byte) : getV (setV s r b) r = b := by simp [getV_setV]

/-- The result survives the flag where both go to one register (R110). -/
theorem getV_setFlagThenResult (s : State) (f : Byte) (x q : Reg) (b : Byte) :
    getV (setFlagThenResult s f x b) q = if q = x then b else if q = flagReg then f else getV s q := by
  simp [setFlagThenResult, getV_setV]

/-- Register `r` after a run of bytes is loaded from register `k` on: its byte of the run, or what it held (R155). -/
theorem getElem_setRegsFrom (v : Vector Byte 16) (k : Nat) (bs : List Byte) (r : Nat) (hr : r < 16) :
    (setRegsFrom v k bs)[r] = if k ≤ r then bs.getD (r - k) v[r] else v[r] := by
  induction bs generalizing v k with
  | nil => simp [setRegsFrom]
  | cons b bs ih =>
    rw [setRegsFrom, ih]
    rcases Nat.lt_trichotomy k r with h | h | h
    · have e : r - k = (r - (k + 1)) + 1 := by omega
      have h1 : k + 1 ≤ r := h
      have h2 : k ≤ r := by omega
      have h3 : k ≠ r := by omega
      rw [if_pos h1, if_pos h2, e, List.getD_cons_succ]
      simp [h3]
    · subst h
      simp
    · have h1 : ¬ k + 1 ≤ r := by omega
      have h2 : ¬ k ≤ r := by omega
      have h3 : k ≠ r := by omega
      simp [h1, h2, h3]

/-- `V[r]` after the first registers are loaded: byte `r` where one is given, else what it held (R155). -/
theorem getV_setFirstRegs (s : State) (bs : List Byte) (r : Reg) :
    getV (setFirstRegs s bs) r = bs.getD r.val (getV s r) := by
  have := getElem_setRegsFrom s.v 0 bs r.val r.isLt
  simpa [getV, setFirstRegs] using this

end Sys2Proof.Machine
end

