-- ==== Sys2Proof/Laws/Ops.lean ====
section
/-! SUPPORT. One lemma for each shared operation, saying once everything it can do: the three ways a step ends, the checks, the
stack, the captured operands, the flags. -/

namespace Sys2Proof.Machine

/-! ### The three ways a step ends -/

@[simp] theorem completeWith_next (u : Bool) (s t : State) :
    completeWith u s = .next t ↔ t = { tick s with lastStep := some ⟨.done, beepOf s, u⟩ } := by
  simp [completeWith, eq_comm]

@[simp] theorem complete_next (s t : State) :
    complete s = .next t ↔ t = { tick s with lastStep := some ⟨.done, beepOf s, false⟩ } := by
  simp [complete]

@[simp] theorem awaitInput_next (s t : State) :
    awaitInput s = .next t ↔ t = { s with lastStep := some ⟨.awaitingInput, false, false⟩ } := by
  simp [awaitInput, eq_comm]

@[simp] theorem raise_next (k : Fault) (s t : State) :
    raise k s = .next t ↔ t = { s with fault := some k, lastStep := some ⟨.fault k, false, false⟩ } := by
  simp [raise, eq_comm]

@[simp] theorem reportHalted_next (k : Fault) (s t : State) :
    reportHalted k s = .next t ↔ t = { s with lastStep := some ⟨.fault k, false, false⟩ } := by
  simp [reportHalted, eq_comm]

/-- A check either takes its fault or lets the rest run. -/
theorem unlessFault_next {c : Option Fault} {s t : State} {k : Result} :
    unlessFault c s k = .next t ↔ (∃ kind, c = some kind ∧ raise kind s = .next t) ∨ (c = none ∧ k = .next t) := by
  cases c <;> simp [unlessFault]

/-- The timer counts down by one and stays at zero (R192). -/
@[simp] theorem toNat_countDown (t : Byte) : (countDown t).toNat = t.toNat - 1 := by
  unfold countDown
  split
  · subst_vars; rfl
  · rename_i h
    have h0 : t.toNat ≠ 0 := fun e => h (BitVec.eq_of_toNat_eq (by simpa using e))
    have := t.isLt
    rw [BitVec.toNat_sub]
    simp; omega

/-- The beep says that the sound timer stands at 1 (R106). -/
theorem beepOf_eq (s : State) : beepOf s = decide (s.st.toNat = 1) := by
  unfold beepOf
  congr 1
  exact propext ⟨fun h => by simp [h], fun h => BitVec.eq_of_toNat_eq (by simpa using h)⟩

/-- A completed instruction ticks from the timers its effect left (R106, R108). -/
theorem tickedFrom_complete (s : State) :
    TickedFrom s.dt s.st { tick s with lastStep := some ⟨.done, beepOf s, false⟩ } :=
  ⟨toNat_countDown s.dt, toNat_countDown s.st, by simp [beepOf_eq]⟩

/-- The tick of a completed instruction whose effect `u` left the timers as `s` had them. -/
theorem ticked_of_complete {s u t : State} (h : complete u = .next t) (hd : u.dt = s.dt) (hs : u.st = s.st) : Ticked s t := by
  rw [complete_next] at h
  unfold Ticked
  rw [h, ← hd, ← hs]
  exact tickedFrom_complete u

/-- A completed instruction whose effect `u` touched none of these fields left them alone: the tick changes only the timers. -/
theorem sameOutsideRegs_of_complete {s u t : State} (h : complete u = .next t) (hi : u.index = s.index) (hp : u.sp = s.sp)
    (hk : u.stack = s.stack) (hf : u.fb = s.fb) (hr : u.redraw = s.redraw) (hm : u.mem = s.mem) (hy : u.keys = s.keys)
    (hl : u.fault = s.fault) : SameOutsideRegs s t := by
  rw [complete_next] at h
  subst h
  simp [SameOutsideRegs, SameStack, SameScreen, SameMemory, SameLatches, keyDown, hi, hp, hk, hf, hr, hm, hy, hl]

/-! ### The call stack (R24) -/

theorem push_eq_none {s : State} {w : Word} : push s w = none ↔ s.sp.val = 16 := by
  have := s.sp.isLt
  unfold push
  split <;> simp <;> omega

theorem push_eq_some {s t : State} {w : Word} (h : push s w = some t) :
    ∃ hs : s.sp.val < 16, t = { s with stack := s.stack.set s.sp.val w, sp := ⟨s.sp.val + 1, Nat.succ_lt_succ hs⟩ } := by
  unfold push at h
  split at h
  · rename_i hs; exact ⟨hs, (Option.some.inj h).symm⟩
  · cases h

theorem pop_eq_none {s : State} : pop s = none ↔ s.sp.val = 0 := by
  unfold pop
  split <;> rename_i h <;> simp [h]

theorem pop_eq_some {s t : State} {w : Word} (h : pop s = some (w, t)) :
    ∃ (k : Nat) (hk : k < 16), s.sp.val = k + 1 ∧ w = s.stack[k] ∧ t = { s with sp := ⟨k, by omega⟩ } := by
  unfold pop at h
  split at h
  · cases h
  · rename_i k hk e
    simp only [Option.some.injEq, Prod.mk.injEq] at h
    exact ⟨k, by omega, by simp [e], h.1.symm, h.2.symm⟩

/-! ### Captured operands -/

@[simp] theorem length_firstRegs (s : State) (x : Reg) : (firstRegs s x).length = x.val + 1 := by
  simp [firstRegs, regCount]

/-- Byte `k` of `V[0..x]` is `V[k]` (R154). -/
theorem getD_firstRegs (s : State) (x : Reg) {k : Nat} (hk : k ≤ x.val) (d : Byte) :
    (firstRegs s x).getD k d = getV s ⟨k, by omega⟩ := by
  have h1 : k < x.val + 1 := by omega
  simp [firstRegs, regCount, getV, List.getD_eq_getElem?_getD, h1]

@[simp] theorem length_decimalDigits (a : Byte) : (decimalDigits a).length = 3 := rfl

@[simp] theorem length_dataBytes (s : State) (n : Nat) : (dataBytes s n).length = n := by simp [dataBytes]

/-- The keys listed as pressed are the keys pressed (R173). -/
@[simp] theorem mem_pressedKeys (s : State) (k : Key) : k ∈ pressedKeys s ↔ keyDown s k = true := by
  simp [pressedKeys]

/-- Nothing is picked exactly when no key is pressed (R173). -/
theorem keyPick_eq_none {table : Config.KeyPick} {l : List Key} : keyPick table l = none ↔ l = [] := by
  rcases l with _ | ⟨a, l⟩
  · simp [keyPick]
  · simp only [keyPick]
    split <;> simp

/-- The key picked is one of those pressed, whatever KEY_PICK is (R6, R173). -/
theorem keyPick_mem {table : Config.KeyPick} {l : List Key} {k : Key} (h : keyPick table l = some k) : k ∈ l := by
  rcases l with _ | ⟨a, l⟩
  · cases h
  · simp only [keyPick] at h
    split at h <;> simp only [Option.some.injEq] at h <;> subst h
    · split
      · assumption
      · exact List.mem_cons_self
    · exact List.mem_cons_self

/-- The pressed keys stand in ascending order (R173). -/
theorem pressedKeys_sorted (s : State) : (pressedKeys s).Pairwise (· < ·) :=
  (List.pairwise_lt_finRange 16).filter _

/-- With the default KEY_PICK the key picked is the lowest pressed (R6, R173). -/
theorem keyPick_default {s : State} {k : Key} (h : keyPick [] (pressedKeys s) = some k) {j : Key} (hj : keyDown s j = true) :
    k ≤ j := by
  have hs := pressedKeys_sorted s
  rw [← mem_pressedKeys] at hj
  rcases hl : pressedKeys s with _ | ⟨a, l⟩
  · rw [hl] at hj; cases hj
  · rw [hl] at h hj hs
    simp only [keyPick, List.lookup_nil, Option.some.injEq] at h
    subst h
    rcases List.mem_cons.1 hj with rfl | hj
    · exact Nat.le_refl _
    · exact Nat.le_of_lt ((List.pairwise_cons.1 hs).1 j hj)

/-- Every choice function on sets of pressed keys is the KEY_PICK of some table (R6). -/
theorem keyPick_of_choice (choose : List Key → Key) (hc : ∀ l, l ≠ [] → choose l ∈ l) :
    ∃ table : Config.KeyPick, ∀ s, pressedKeys s ≠ [] → keyPick table (pressedKeys s) = some (choose (pressedKeys s)) := by
  have look : ∀ (sets : List (List Key)) (l : List Key), l ∈ sets →
      (sets.map fun l => (l, choose l)).lookup l = some (choose l) := by
    intro sets l hl
    induction sets with
    | nil => cases hl
    | cons m sets ih =>
      simp only [List.map_cons, List.lookup_cons]
      by_cases e : l = m
      · subst e; simp
      · have : (l == m) = false := by simpa using e
        rw [this]
        exact ih ((List.mem_cons.1 hl).resolve_left e)
  refine ⟨(List.finRange 16).sublists.map fun l => (l, choose l), fun s hne => ?_⟩
  have hl := look _ (pressedKeys s) (List.mem_sublists.2 List.filter_sublist)
  have hm := hc _ hne
  generalize pressedKeys s = l at *
  rcases l with _ | ⟨a, l⟩
  · exact absurd rfl hne
  · simp only [keyPick, hl, if_pos hm]

/-- The key a register names (R170). -/
theorem keyOf_eq_some {a : Byte} {k : Key} : keyOf a = some k ↔ a.toNat = k.val := by
  unfold keyOf
  split
  · simp [Fin.ext_iff]
  · have := k.isLt; simp; omega

theorem keyOf_eq_none {a : Byte} : keyOf a = none ↔ 15 < a.toNat := by
  unfold keyOf
  split <;> simp <;> omega

/-! ### Flags -/

@[simp] theorem flagByte_true : flagByte true = 1 := rfl

@[simp] theorem flagByte_false : flagByte false = 0 := rfl

/-! ### The common shapes of the meanings -/

/-- `pc` moved on by a word (R105). -/
theorem pcPlus_of_eq {s t : State} {n : Word} (h : t.pc = s.pc + n) : PcPlus n.toNat s t := by
  intro hlt
  rw [h, BitVec.toNat_add, Nat.mod_eq_of_lt hlt]

/-- Everything `writeResult` does. -/
theorem writeResult_spec {i : Instr} {s : State} {x : Reg} {b : Byte} (h : exec i s = writeResult s x b) :
    WritesRegister i s x b := by
  refine ⟨_, h, getV_setV_same s x b, fun r hr => ?_, pcPlus_of_eq (n := 2) rfl,
    sameOutsideRegs_of_complete (u := advance (setV s x b) 2) rfl rfl rfl rfl rfl rfl rfl rfl rfl, rfl, tickedFrom_complete _⟩
  exact (getV_setV s x r b).trans (if_neg hr)

/-- Everything `writeFlagAndResult` does. -/
theorem writeFlagAndResult_spec {i : Instr} {s : State} {f b : Byte} {x : Reg} (h : exec i s = writeFlagAndResult s f x b) :
    WritesFlagAndRegister i s f.toNat x b.toNat := by
  have get := getV_setFlagThenResult s f x
  refine ⟨_, h, ?_, fun hx => ?_, fun r hr h15 => ?_, pcPlus_of_eq (n := 2) rfl,
    sameOutsideRegs_of_complete (u := advance (setFlagThenResult s f x b) 2) rfl rfl rfl rfl rfl rfl rfl rfl rfl, rfl,
    tickedFrom_complete _⟩
  · exact congrArg BitVec.toNat ((get x b).trans (if_pos rfl))
  · exact congrArg BitVec.toNat ((get 15 b).trans (by rw [if_neg (Ne.symm hx)]; rfl))
  · exact (get r b).trans (by rw [if_neg hr]; exact if_neg h15)

/-- Everything a skip does. -/
theorem skipWhen_spec {i : Instr} {s : State} {b : Bool} (h : exec i s = complete (skipWhen b s)) :
    SkipsWhen i s (b = true) := by
  refine ⟨_, h, fun hb => ?_, fun hb => ?_, fun _ => rfl,
    sameOutsideRegs_of_complete (u := skipWhen b s) rfl rfl rfl rfl rfl rfl rfl rfl rfl, rfl, tickedFrom_complete _⟩
  · rw [hb]; exact pcPlus_of_eq (n := 4) rfl
  · rw [Bool.eq_false_of_not_eq_true hb]; exact pcPlus_of_eq (n := 2) rfl

/-- Everything a store at `I` does that answers a next state: its fault and nothing else, or all its bytes (R65, R67). -/
theorem storeAtIndex_cases {s t : State} {bytes : List Byte} (hb : 0 < bytes.length) (h : storeAtIndex s bytes = .next t) :
    (∃ k, writeCheck s.index.toNat bytes.length = some k ∧ raise k s = .next t) ∨
    (Config.progBase ≤ s.index.toNat ∧ s.index.toNat + bytes.length ≤ Config.memSize ∧
      complete (advance { s with mem := writeBytes s.mem s.index.toNat bytes } 2) = .next t) := by
  rcases unlessFault_next.1 h with ⟨k, hk, hr⟩ | ⟨hk, hr⟩
  · exact .inl ⟨k, hk, hr⟩
  · have := (writeCheck_eq_none hb).1 hk
    exact .inr ⟨this.1, this.2, hr⟩

/-- Everything a key skip does (R170, R171). -/
theorem skipOnKey_cases (s : State) (x : Reg) (level : Bool) :
    (15 < (getV s x).toNat ∧ skipOnKey s x level = raise .keyIndexOutOfRange s) ∨
    (∃ k : Key, (getV s x).toNat = k.val ∧ skipOnKey s x level = complete (skipWhen (decide (keyDown s k = level)) s)) := by
  unfold skipOnKey
  split <;> rename_i h
  · exact .inl ⟨keyOf_eq_none.1 h, rfl⟩
  · exact .inr ⟨_, keyOf_eq_some.1 h, rfl⟩

end Sys2Proof.Machine
end

