-- ==== Sys2Proof/Laws/Step.lean ====
section
/-! SUPPORT. Everything one step can do, said once: the fetch, and the four ways a step goes on from the halted check and the fetch. -/

namespace Sys2Proof.Machine

theorem fetch_eq_none {s : State} : fetch s = none ↔ 0xFFF < s.pc.toNat + 1 := by
  unfold fetch; split <;> simp_all

theorem fetch_eq_some {s : State} {op : Word} :
    fetch s = some op ↔ s.pc.toNat + 1 ≤ 0xFFF ∧
      op = wordOfBytes (readByte s.mem s.pc.toNat) (readByte s.mem (s.pc.toNat + 1)) := by
  unfold fetch; split
  · simp; omega
  · simp only [Option.some.injEq, eq_comm (b := op)]
    exact ⟨fun h => ⟨by omega, h⟩, fun h => h.2⟩

/-- The step of a running engine whose fetched word decodes to `i` is the meaning of `i`. -/
theorem step_of_instr {s : State} {op : Word} {i : Instr} (hf : s.fault = none) (hw : fetch s = some op)
    (hd : decodeWord op = .instr i) : step s = exec i s := by
  simp [step, runWord, hf, hw, hd]

/-- What a step that answers `t` has done: it was halted, or its fetch failed, or it ran `UNKNOWN`, or it ran an instruction (R100). -/
theorem step_cases {s t : State} (h : step s = .next t) :
    (∃ k, s.fault = some k ∧ t = { s with lastStep := some ⟨.fault k, false, false⟩ }) ∨
    (s.fault = none ∧ fetch s = none ∧
      t = { s with fault := some .addressOutOfRange, lastStep := some ⟨.fault .addressOutOfRange, false, false⟩ }) ∨
    (∃ op why, s.fault = none ∧ fetch s = some op ∧ decodeWord op = .unknown why ∧ execUnknown s = .next t) ∨
    (∃ op i, s.fault = none ∧ fetch s = some op ∧ decodeWord op = .instr i ∧ exec i s = .next t) := by
  unfold step at h
  split at h
  · rename_i k hk
    exact .inl ⟨k, hk, by simpa using h⟩
  · rename_i hn
    split at h
    · rename_i hw
      exact .inr (.inl ⟨hn, hw, by simpa using h⟩)
    · rename_i op hw
      unfold runWord at h
      split at h
      · rename_i i hd
        exact .inr (.inr (.inr ⟨op, i, hn, hw, hd, h⟩))
      · rename_i why hd
        exact .inr (.inr (.inl ⟨op, why, hn, hw, hd, h⟩))

end Sys2Proof.Machine
end

