-- ==== Sys2Proof/Laws/Exec.lean ====
section
/-! SUPPORT. What any instruction can do, said once: the three ways it ends, and what becomes of memory. -/

namespace Sys2Proof.Machine

/-- The three ways an instruction ends (R108): completed with an effect `u`, waiting, or with a fatal fault. No effect touches the
fault latch (R31), the key latch (R29) or the parameters (R6), or clears the redraw flag (R28). -/
inductive ExecEnds (s t : State) : Prop
  | done (u : State) (h : t = { tick u with lastStep := some ⟨.done, beepOf u, false⟩ }) (hf : u.fault = s.fault)
      (hk : u.keys = s.keys) (hp : u.params = s.params) (hr : s.redraw = true → u.redraw = true)
  | wait (h : t = { s with lastStep := some ⟨.awaitingInput, false, false⟩ })
  | fault (k : Fault) (h : t = { s with fault := some k, lastStep := some ⟨.fault k, false, false⟩ })

/-- Every instruction answers a next state, in one of the three ways. -/
theorem exec_total (i : Instr) (s : State) : ∃ t, exec i s = .next t ∧ ExecEnds s t := by
  cases i
  case ret =>
    simp only [exec, execRet]
    split
    · exact ⟨_, rfl, .fault _ rfl⟩
    · rename_i w s' h
      obtain ⟨k, hk, _, _, rfl⟩ := pop_eq_some h
      exact ⟨_, rfl, .done _ rfl rfl rfl rfl id⟩
  case call nnn =>
    simp only [exec, execCall]
    split
    · exact ⟨_, rfl, .fault _ rfl⟩
    · rename_i s' h
      obtain ⟨_, rfl⟩ := push_eq_some h
      exact ⟨_, rfl, .done _ rfl rfl rfl rfl id⟩
  case skp x =>
    simp only [exec, execSkp, skipOnKey]
    split
    · exact ⟨_, rfl, .fault _ rfl⟩
    · exact ⟨_, rfl, .done _ rfl rfl rfl rfl id⟩
  case sknp x =>
    simp only [exec, execSknp, skipOnKey]
    split
    · exact ⟨_, rfl, .fault _ rfl⟩
    · exact ⟨_, rfl, .done _ rfl rfl rfl rfl id⟩
  case waitk x =>
    simp only [exec, execWaitk]
    split
    · exact ⟨_, rfl, .wait rfl⟩
    · exact ⟨_, rfl, .done _ rfl rfl rfl rfl id⟩
  case bcd x =>
    simp only [exec, execBcd, storeAtIndex, unlessFault]
    split
    · exact ⟨_, rfl, .fault _ rfl⟩
    · exact ⟨_, rfl, .done _ rfl rfl rfl rfl id⟩
  case stm x =>
    simp only [exec, execStm, storeAtIndex, unlessFault]
    split
    · exact ⟨_, rfl, .fault _ rfl⟩
    · exact ⟨_, rfl, .done _ rfl rfl rfl rfl id⟩
  case ldm x =>
    simp only [exec, execLdm, unlessFault]
    split
    · exact ⟨_, rfl, .fault _ rfl⟩
    · exact ⟨_, rfl, .done _ rfl rfl rfl rfl id⟩
  case drw x y n =>
    simp only [exec, execDrw, unlessFault]
    split
    · exact ⟨_, rfl, .fault _ rfl⟩
    · exact ⟨_, rfl, .done _ rfl rfl rfl rfl fun _ => rfl⟩
  case cls => exact ⟨_, rfl, .done _ rfl rfl rfl rfl fun _ => rfl⟩
  all_goals exact ⟨_, rfl, .done _ rfl rfl rfl rfl id⟩

/-- What an instruction that answers `t` has done. -/
theorem exec_ends {i : Instr} {s t : State} (h : exec i s = .next t) : ExecEnds s t := by
  obtain ⟨t', h', e⟩ := exec_total i s
  rw [h] at h'; cases h'; exact e

/-- Everything an instruction does to memory (R65): nothing, or the store of `Fx33` or `Fx55`, whole and within 0x200 to 0xFFF. -/
theorem exec_mem {i : Instr} {s t : State} (h : exec i s = .next t) :
    t.mem = s.mem ∨
    ∃ bytes : List Byte, t.mem = writeBytes s.mem s.index.toNat bytes ∧ 0x200 ≤ s.index.toNat ∧
      s.index.toNat + bytes.length ≤ 4096 ∧
      ((∃ x, i = .bcd x ∧ bytes.length = 3) ∨ (∃ x, i = .stm x ∧ bytes.length = x.val + 1)) := by
  cases i
  case ret =>
    simp only [exec, execRet] at h
    split at h
    · simp at h; subst h; exact .inl rfl
    · rename_i w s' hpop
      obtain ⟨j, hj, hsp, _, rfl⟩ := pop_eq_some hpop
      simp at h; subst h; exact .inl rfl
  case call nnn =>
    simp only [exec, execCall] at h
    split at h
    · simp at h; subst h; exact .inl rfl
    · rename_i s' hpush
      obtain ⟨hsp, rfl⟩ := push_eq_some hpush
      simp at h; subst h; exact .inl rfl
  case skp x =>
    simp only [exec, execSkp, skipOnKey] at h
    split at h <;> simp at h <;> subst h <;> exact .inl rfl
  case sknp x =>
    simp only [exec, execSknp, skipOnKey] at h
    split at h <;> simp at h <;> subst h <;> exact .inl rfl
  case waitk x =>
    simp only [exec, execWaitk] at h
    split at h <;> simp at h <;> subst h <;> exact .inl rfl
  case ldm x =>
    simp only [exec, execLdm, unlessFault_next] at h
    rcases h with ⟨k', hc, h⟩ | ⟨hc, h⟩ <;> simp at h <;> subst h <;> exact .inl rfl
  case drw x y n =>
    simp only [exec, execDrw, unlessFault_next] at h
    rcases h with ⟨k', hc, h⟩ | ⟨hc, h⟩ <;> simp at h <;> subst h <;> exact .inl rfl
  case bcd x =>
    simp only [exec, execBcd, storeAtIndex, unlessFault_next, length_decimalDigits, baseAddr] at h
    rcases h with ⟨k', hc, h⟩ | ⟨hc, h⟩ <;> simp at h <;> subst h
    · exact .inl rfl
    · rw [writeCheck_eq_none (by omega)] at hc
      exact .inr ⟨_, rfl, hc.1, hc.2, .inl ⟨_, rfl, rfl⟩⟩
  case stm x =>
    simp only [exec, execStm, storeAtIndex, unlessFault_next, length_firstRegs, baseAddr] at h
    rcases h with ⟨k', hc, h⟩ | ⟨hc, h⟩ <;> simp at h <;> subst h
    · exact .inl rfl
    · rw [writeCheck_eq_none (by omega)] at hc
      exact .inr ⟨_, rfl, hc.1, by rw [length_firstRegs]; exact hc.2, .inr ⟨_, rfl, length_firstRegs _ _⟩⟩
  all_goals (cases h; exact .inl rfl)

end Sys2Proof.Machine
end

