-- ==== Sys2Proof/Laws/PerInstr.lean ====
section
/-! SUPPORT. The per-instruction family `EncodesRow`: the word of an instruction lies in the instruction's own row of the opcode map
(spec 30_encoding.md R85), one lemma per constructor. -/

namespace Sys2Proof

/-- Bit `i` of a word of format `XYN` (R82). -/
theorem getLsbD_packXYN (f : BitVec 4) (x y : Reg) (n : BitVec 4) (i : Nat) :
    (packXYN f x y n).getLsbD i =
      if i < 4 then n.getLsbD i
      else if i - 4 < 4 then (regBits y).getLsbD (i - 4)
      else if i - 4 - 4 < 4 then (regBits x).getLsbD (i - 4 - 4) else f.getLsbD (i - 4 - 4 - 4) := by
  show (f ++ regBits x ++ regBits y ++ n).getLsbD i = _
  simp only [BitVec.getLsbD_append]

/-- Bit `i` of a word of format `XKK` (R82). -/
theorem getLsbD_packXKK (f : BitVec 4) (x : Reg) (kk : Byte) (i : Nat) :
    (packXKK f x kk).getLsbD i =
      if i < 8 then kk.getLsbD i
      else if i - 8 < 4 then (regBits x).getLsbD (i - 8) else f.getLsbD (i - 8 - 4) := by
  show (f ++ regBits x ++ kk).getLsbD i = _
  simp only [BitVec.getLsbD_append]

/-- Bit `i` of a word of format `NNN` (R82). -/
theorem getLsbD_packNNN (f : BitVec 4) (nnn : BitVec 12) (i : Nat) :
    (packNNN f nnn).getLsbD i = if i < 12 then nnn.getLsbD i else f.getLsbD (i - 12) := by
  show (f ++ nnn).getLsbD i = _
  simp only [BitVec.getLsbD_append]

/-- Field 0 has no bit set. -/
theorem regBits_zero : regBits 0 = 0#4 := rfl

/-- The literal bits of a word of format `XYS` are its family and its low nibble (R82). -/
theorem packXYN_and_F00F (f : BitVec 4) (x y : Reg) (n : BitVec 4) :
    packXYN f x y n &&& 0xF00F = packXYN f 0 0 n := by
  refine BitVec.eq_of_getLsbD_eq fun i hi => ?_
  rw [BitVec.getLsbD_and, getLsbD_packXYN, getLsbD_packXYN, regBits_zero]
  interval_cases i <;> simp

/-- The literal bits of a word of format `XYN` are its family (R82). -/
theorem packXYN_and_F000 (f : BitVec 4) (x y : Reg) (n : BitVec 4) :
    packXYN f x y n &&& 0xF000 = packXYN f 0 0 0 := by
  refine BitVec.eq_of_getLsbD_eq fun i hi => ?_
  rw [BitVec.getLsbD_and, getLsbD_packXYN, getLsbD_packXYN, regBits_zero]
  interval_cases i <;> simp

/-- The literal bits of a word of format `XKK` are its family (R82). -/
theorem packXKK_and_F000 (f : BitVec 4) (x : Reg) (kk : Byte) : packXKK f x kk &&& 0xF000 = packXKK f 0 0 := by
  refine BitVec.eq_of_getLsbD_eq fun i hi => ?_
  rw [BitVec.getLsbD_and, getLsbD_packXKK, getLsbD_packXKK, regBits_zero]
  interval_cases i <;> simp

/-- The literal bits of a word of format `XSS` are its family and its low byte (R82). -/
theorem packXKK_and_F0FF (f : BitVec 4) (x : Reg) (kk : Byte) : packXKK f x kk &&& 0xF0FF = packXKK f 0 kk := by
  refine BitVec.eq_of_getLsbD_eq fun i hi => ?_
  rw [BitVec.getLsbD_and, getLsbD_packXKK, getLsbD_packXKK, regBits_zero]
  interval_cases i <;> simp

/-- The literal bits of a word of format `NNN` are its family (R82). -/
theorem packNNN_and_F000 (f : BitVec 4) (nnn : BitVec 12) : packNNN f nnn &&& 0xF000 = packNNN f 0 := by
  refine BitVec.eq_of_getLsbD_eq fun i hi => ?_
  rw [BitVec.getLsbD_and, getLsbD_packNNN, getLsbD_packNNN]
  interval_cases i <;> simp

end Sys2Proof

/-- The word an instruction encodes to belongs to the instruction's row of R85. -/
def Sys2Proof.Laws.EncodesRow.Statement (i : Sys2Proof.Instr) : Prop := i.row.Matches (Sys2Proof.encode i)

open Sys2Proof

theorem Sys2Proof.Laws.EncodesRow.cls : Sys2Proof.Laws.EncodesRow.Statement .cls :=
  rfl

theorem Sys2Proof.Laws.EncodesRow.ret : Sys2Proof.Laws.EncodesRow.Statement .ret :=
  rfl

theorem Sys2Proof.Laws.EncodesRow.jp (nnn : BitVec 12) : Sys2Proof.Laws.EncodesRow.Statement (.jp nnn) :=
  (packNNN_and_F000 _ _).trans rfl

theorem Sys2Proof.Laws.EncodesRow.call (nnn : BitVec 12) : Sys2Proof.Laws.EncodesRow.Statement (.call nnn) :=
  (packNNN_and_F000 _ _).trans rfl

theorem Sys2Proof.Laws.EncodesRow.sek (x : Reg) (kk : Byte) : Sys2Proof.Laws.EncodesRow.Statement (.sek x kk) :=
  (packXKK_and_F000 _ _ _).trans rfl

theorem Sys2Proof.Laws.EncodesRow.snek (x : Reg) (kk : Byte) : Sys2Proof.Laws.EncodesRow.Statement (.snek x kk) :=
  (packXKK_and_F000 _ _ _).trans rfl

theorem Sys2Proof.Laws.EncodesRow.se (x y : Reg) : Sys2Proof.Laws.EncodesRow.Statement (.se x y) :=
  (packXYN_and_F00F _ _ _ _).trans rfl

theorem Sys2Proof.Laws.EncodesRow.ldk (x : Reg) (kk : Byte) : Sys2Proof.Laws.EncodesRow.Statement (.ldk x kk) :=
  (packXKK_and_F000 _ _ _).trans rfl

theorem Sys2Proof.Laws.EncodesRow.addk (x : Reg) (kk : Byte) : Sys2Proof.Laws.EncodesRow.Statement (.addk x kk) :=
  (packXKK_and_F000 _ _ _).trans rfl

theorem Sys2Proof.Laws.EncodesRow.mov (x y : Reg) : Sys2Proof.Laws.EncodesRow.Statement (.mov x y) :=
  (packXYN_and_F00F _ _ _ _).trans rfl

theorem Sys2Proof.Laws.EncodesRow.or (x y : Reg) : Sys2Proof.Laws.EncodesRow.Statement (.or x y) :=
  (packXYN_and_F00F _ _ _ _).trans rfl

theorem Sys2Proof.Laws.EncodesRow.and (x y : Reg) : Sys2Proof.Laws.EncodesRow.Statement (.and x y) :=
  (packXYN_and_F00F _ _ _ _).trans rfl

theorem Sys2Proof.Laws.EncodesRow.xor (x y : Reg) : Sys2Proof.Laws.EncodesRow.Statement (.xor x y) :=
  (packXYN_and_F00F _ _ _ _).trans rfl

theorem Sys2Proof.Laws.EncodesRow.add (x y : Reg) : Sys2Proof.Laws.EncodesRow.Statement (.add x y) :=
  (packXYN_and_F00F _ _ _ _).trans rfl

theorem Sys2Proof.Laws.EncodesRow.sub (x y : Reg) : Sys2Proof.Laws.EncodesRow.Statement (.sub x y) :=
  (packXYN_and_F00F _ _ _ _).trans rfl

theorem Sys2Proof.Laws.EncodesRow.shr (x y : Reg) : Sys2Proof.Laws.EncodesRow.Statement (.shr x y) :=
  (packXYN_and_F00F _ _ _ _).trans rfl

theorem Sys2Proof.Laws.EncodesRow.subn (x y : Reg) : Sys2Proof.Laws.EncodesRow.Statement (.subn x y) :=
  (packXYN_and_F00F _ _ _ _).trans rfl

theorem Sys2Proof.Laws.EncodesRow.shl (x y : Reg) : Sys2Proof.Laws.EncodesRow.Statement (.shl x y) :=
  (packXYN_and_F00F _ _ _ _).trans rfl

theorem Sys2Proof.Laws.EncodesRow.sne (x y : Reg) : Sys2Proof.Laws.EncodesRow.Statement (.sne x y) :=
  (packXYN_and_F00F _ _ _ _).trans rfl

theorem Sys2Proof.Laws.EncodesRow.ldi (nnn : BitVec 12) : Sys2Proof.Laws.EncodesRow.Statement (.ldi nnn) :=
  (packNNN_and_F000 _ _).trans rfl

theorem Sys2Proof.Laws.EncodesRow.jpv0 (nnn : BitVec 12) : Sys2Proof.Laws.EncodesRow.Statement (.jpv0 nnn) :=
  (packNNN_and_F000 _ _).trans rfl

theorem Sys2Proof.Laws.EncodesRow.rnd (x : Reg) (kk : Byte) : Sys2Proof.Laws.EncodesRow.Statement (.rnd x kk) :=
  (packXKK_and_F000 _ _ _).trans rfl

theorem Sys2Proof.Laws.EncodesRow.drw (x y : Reg) (n : BitVec 4) : Sys2Proof.Laws.EncodesRow.Statement (.drw x y n) :=
  (packXYN_and_F000 _ _ _ _).trans rfl

theorem Sys2Proof.Laws.EncodesRow.skp (x : Reg) : Sys2Proof.Laws.EncodesRow.Statement (.skp x) :=
  (packXKK_and_F0FF _ _ _).trans rfl

theorem Sys2Proof.Laws.EncodesRow.sknp (x : Reg) : Sys2Proof.Laws.EncodesRow.Statement (.sknp x) :=
  (packXKK_and_F0FF _ _ _).trans rfl

theorem Sys2Proof.Laws.EncodesRow.getdt (x : Reg) : Sys2Proof.Laws.EncodesRow.Statement (.getdt x) :=
  (packXKK_and_F0FF _ _ _).trans rfl

theorem Sys2Proof.Laws.EncodesRow.waitk (x : Reg) : Sys2Proof.Laws.EncodesRow.Statement (.waitk x) :=
  (packXKK_and_F0FF _ _ _).trans rfl

theorem Sys2Proof.Laws.EncodesRow.setdt (x : Reg) : Sys2Proof.Laws.EncodesRow.Statement (.setdt x) :=
  (packXKK_and_F0FF _ _ _).trans rfl

theorem Sys2Proof.Laws.EncodesRow.setst (x : Reg) : Sys2Proof.Laws.EncodesRow.Statement (.setst x) :=
  (packXKK_and_F0FF _ _ _).trans rfl

theorem Sys2Proof.Laws.EncodesRow.addi (x : Reg) : Sys2Proof.Laws.EncodesRow.Statement (.addi x) :=
  (packXKK_and_F0FF _ _ _).trans rfl

theorem Sys2Proof.Laws.EncodesRow.ldf (x : Reg) : Sys2Proof.Laws.EncodesRow.Statement (.ldf x) :=
  (packXKK_and_F0FF _ _ _).trans rfl

theorem Sys2Proof.Laws.EncodesRow.bcd (x : Reg) : Sys2Proof.Laws.EncodesRow.Statement (.bcd x) :=
  (packXKK_and_F0FF _ _ _).trans rfl

theorem Sys2Proof.Laws.EncodesRow.stm (x : Reg) : Sys2Proof.Laws.EncodesRow.Statement (.stm x) :=
  (packXKK_and_F0FF _ _ _).trans rfl

theorem Sys2Proof.Laws.EncodesRow.ldm (x : Reg) : Sys2Proof.Laws.EncodesRow.Statement (.ldm x) :=
  (packXKK_and_F0FF _ _ _).trans rfl
end

