-- ==== Sys2Proof/Tests/Slice0.lean ====
section
/-! SUPPORT. The model's own tests: ill-formed host input refused, decode tests from the words of spec 95_test_vectors.md section 2.1,
one-step tests from its sections 2.2 to 2.9 (the vector's id stands in the comment), and for every obligation with hypotheses a named
witness that meets them. -/

namespace Sys2Proof.Tests

open Sys2Proof Sys2Proof.Machine

/-! ### Small states -/

/-- The reset state with a word at `pc` (spec 95_test_vectors.md section 0). -/
def boot (w : Nat) : State := State.reset.withFetchWord 16 w

/-- The reset state at another `pc` with a word there. -/
def bootAt (pc : Word) (w : Nat) : State := State.withFetchWord { State.reset with pc := pc } 16 w

/-- Registers set. -/
def regs (l : List (Reg × Byte)) (s : State) : State := l.foldl (fun u p => setV u p.1 p.2) s

/-- Keys pressed. -/
def press (l : List Key) (s : State) : State := { s with keys := l.foldl (fun v k => Vector.set v k.val true k.isLt) s.keys }

/-- Pixels lit, as (column, row). -/
def lit (l : List (Fin 64 × Fin 32)) (s : State) : State := { s with fb := l.foldl (fun f p => flipPixel f p.2 p.1) s.fb }

/-- Bytes stored. -/
def bytesAt (a : Nat) (l : List Byte) (s : State) : State := { s with mem := writeBytes s.mem a l }

/-- The state a result answers; `s` where it answers none. -/
def stateOf (s : State) : Result → State
  | .next t => t
  | _ => s

/-- The state after one step. -/
def after (s : State) : State := stateOf s (step s)

/-- A result is a next state. -/
def isNext : Result → Bool
  | .next _ => true
  | _ => false

/-- The outputs of an ordinary completed step. -/
def quiet : Option StepOutputs := some ⟨.done, false, false⟩

theorem eq_next_of_isNext {s : State} {r : Result} (h : isNext r = true) : r = .next (stateOf s r) := by
  cases r <;> simp_all [isNext, stateOf]

/-! ### Well-formedness -/

theorem test_image_limit : Image.wellFormed (List.replicate 3584 0xAA) = true := by
  simp only [Image.wellFormed, List.length_replicate]; rfl

/-- H4: one byte more is refused. -/
theorem test_image_too_large : Image.wellFormed (List.replicate 3585 0xAA) = false := by
  simp only [Image.wellFormed, List.length_replicate]; rfl

/-- H8: key index 16 is outside the latch. -/
theorem test_key_index : keyIndexWellFormed 15 = true ∧ keyIndexWellFormed 16 = false := by decide

/-! ### Decode: every constructor, from the words of section 2.1 -/

theorem test_decode_0 : decodeBytes 0x00 0xE0 = .instr .cls ∧ decodeBytes 0x00 0xEE = .instr .ret ∧
    decodeBytes 0x00 0x00 = .unknown .family0 ∧ decodeBytes 0x00 0xE1 = .unknown .family0 ∧
    decodeBytes 0x01 0xE0 = .unknown .family0 ∧ decodeBytes 0x0F 0xEE = .unknown .family0 := by decide

theorem test_decode_1_to_4 : decodeBytes 0x1A 0xBC = .instr (.jp 0xABC) ∧ decodeBytes 0x2A 0xBC = .instr (.call 0xABC) ∧
    decodeBytes 0x3A 0x05 = .instr (.sek 10 0x05) ∧ decodeBytes 0x4F 0xFF = .instr (.snek 15 0xFF) := by decide

theorem test_decode_5_to_7 : decodeBytes 0x51 0x20 = .instr (.se 1 2) ∧ decodeBytes 0x51 0x21 = .unknown .family5 ∧
    decodeBytes 0x6A 0x2C = .instr (.ldk 10 0x2C) ∧ decodeBytes 0x73 0x05 = .instr (.addk 3 0x05) := by decide

theorem test_decode_8 : decodeBytes 0x81 0x20 = .instr (.mov 1 2) ∧ decodeBytes 0x8A 0xB1 = .instr (.or 10 11) ∧
    decodeBytes 0x8A 0xB2 = .instr (.and 10 11) ∧ decodeBytes 0x8A 0xB3 = .instr (.xor 10 11) ∧
    decodeBytes 0x8A 0xB4 = .instr (.add 10 11) ∧ decodeBytes 0x8A 0xB5 = .instr (.sub 10 11) ∧
    decodeBytes 0x8A 0xB6 = .instr (.shr 10 11) ∧ decodeBytes 0x8A 0xB7 = .instr (.subn 10 11) ∧
    decodeBytes 0x8A 0xBE = .instr (.shl 10 11) := by decide

theorem test_decode_8_unknown : decodeBytes 0x8A 0xB8 = .unknown .family8 ∧ decodeBytes 0x8A 0xBD = .unknown .family8 ∧
    decodeBytes 0x8A 0xBF = .unknown .family8 := by decide

theorem test_decode_9_to_D : decodeBytes 0x9A 0xB0 = .instr (.sne 10 11) ∧ decodeBytes 0x9A 0xB1 = .unknown .family9 ∧
    decodeBytes 0xA2 0xF0 = .instr (.ldi 0x2F0) ∧ decodeBytes 0xBF 0xFF = .instr (.jpv0 0xFFF) ∧
    decodeBytes 0xC3 0x0F = .instr (.rnd 3 0x0F) ∧ decodeBytes 0xD0 0x15 = .instr (.drw 0 1 5) ∧
    decodeBytes 0xDF 0xF0 = .instr (.drw 15 15 0) := by decide

theorem test_decode_E : decodeBytes 0xE0 0x9E = .instr (.skp 0) ∧ decodeBytes 0xEF 0xA1 = .instr (.sknp 15) ∧
    decodeBytes 0xE0 0x9F = .unknown .familyE ∧ decodeBytes 0xE0 0xA0 = .unknown .familyE ∧
    decodeBytes 0xE0 0x00 = .unknown .familyE := by decide

theorem test_decode_F : decodeBytes 0xF0 0x07 = .instr (.getdt 0) ∧ decodeBytes 0xF1 0x0A = .instr (.waitk 1) ∧
    decodeBytes 0xF2 0x15 = .instr (.setdt 2) ∧ decodeBytes 0xF3 0x18 = .instr (.setst 3) ∧
    decodeBytes 0xF4 0x1E = .instr (.addi 4) ∧ decodeBytes 0xF5 0x29 = .instr (.ldf 5) ∧
    decodeBytes 0xF6 0x33 = .instr (.bcd 6) ∧ decodeBytes 0xF7 0x55 = .instr (.stm 7) ∧
    decodeBytes 0xFF 0x65 = .instr (.ldm 15) := by decide

theorem test_decode_F_unknown : decodeBytes 0xF0 0x00 = .unknown .familyF ∧ decodeBytes 0xF0 0x1F = .unknown .familyF ∧
    decodeBytes 0xF1 0x66 = .unknown .familyF ∧ decodeBytes 0xF0 0x75 = .unknown .familyF ∧
    decodeBytes 0xFF 0xFF = .unknown .familyF := by decide

theorem test_table_word : decodeTableWord 16 0xD015 = some (.drw 0 1 5) ∧ decodeTableWord 16 0x5121 = none := by decide

theorem test_fetch_word : (boot 0x8AB4).mem = [(0x200, 0x8A), (0x201, 0xB4)] ∧ fetch (boot 0x8AB4) = some 0x8AB4 := by decide

/-! ### One step -/

/-- F1. -/
theorem test_jp : (after (boot 0x1228)).pc = 0x228 ∧ (after (boot 0x1228)).lastStep = quiet := by decide

/-- F5: the last address a word can be fetched at. -/
theorem test_fetch_last : (after (bootAt 0xFFE 0x6105)).pc = 0x1000 ∧ getV (after (bootAt 0xFFE 0x6105)) 1 = 5 := by decide

/-- F6: the value pushed is the address of the call. -/
theorem test_call : (after (bootAt 0x204 0x2300)).pc = 0x300 ∧ (after (bootAt 0x204 0x2300)).sp = 1 ∧
    (after (bootAt 0x204 0x2300)).stack[0] = 0x204 := by decide

/-- F10: the seventeenth nested call. -/
theorem test_call_overflow : (after { boot 0x2300 with sp := 16 }).fault = some .stackOverflow ∧
    (after { boot 0x2300 with sp := 16 }).pc = 0x200 := by decide

/-- F7. -/
theorem test_ret : (after { bootAt 0x300 0x00EE with sp := 1, stack := Vector.replicate 16 0x204 }).pc = 0x206 ∧
    (after { bootAt 0x300 0x00EE with sp := 1, stack := Vector.replicate 16 0x204 }).sp = 0 := by decide

/-- F8: no tick on a faulting step. -/
theorem test_ret_underflow : (after { boot 0x00EE with dt := 5 }).fault = some .stackUnderflow ∧
    (after { boot 0x00EE with dt := 5 }).dt = 5 := by decide

/-- F12: the sum is not masked. -/
theorem test_jpv0 : (after (regs [(0, 0xFF)] (boot 0xBFFF))).pc = 0x10FE := by decide

/-- S1, S2. -/
theorem test_sek : (after (regs [(10, 5)] (boot 0x3A05))).pc = 0x204 ∧ (after (regs [(10, 6)] (boot 0x3A05))).pc = 0x202 := by
  decide

/-- S3, S4. -/
theorem test_snek : (after (regs [(10, 5)] (boot 0x4A05))).pc = 0x202 ∧ (after (regs [(10, 6)] (boot 0x4A05))).pc = 0x204 := by
  decide

/-- S5, S6. -/
theorem test_se : (after (regs [(1, 0x7F), (2, 0x7F)] (boot 0x5120))).pc = 0x204 ∧
    (after (regs [(1, 0x7F), (2, 0x80)] (boot 0x5120))).pc = 0x202 := by decide

/-- S8, S9. -/
theorem test_sne : (after (regs [(1, 1), (2, 2)] (boot 0x9120))).pc = 0x204 ∧
    (after (regs [(1, 2), (2, 2)] (boot 0x9120))).pc = 0x202 := by decide

/-- A1. -/
theorem test_ldk : getV (after (boot 0x6A2C)) 10 = 0x2C ∧ (after (boot 0x6A2C)).pc = 0x202 := by decide

/-- A3: wraps, and no flag. -/
theorem test_addk : getV (after (regs [(3, 0xFE), (15, 0xAA)] (boot 0x7305))) 3 = 3 ∧
    getV (after (regs [(3, 0xFE), (15, 0xAA)] (boot 0x7305))) 15 = 0xAA := by decide

/-- A6. -/
theorem test_mov : getV (after (regs [(2, 0x44)] (boot 0x8120))) 1 = 0x44 := by decide

/-- A8. -/
theorem test_or : getV (after (regs [(1, 0x0F), (2, 0xF0), (15, 7)] (boot 0x8121))) 1 = 0xFF ∧
    getV (after (regs [(1, 0x0F), (2, 0xF0), (15, 7)] (boot 0x8121))) 15 = 7 := by decide

/-- A9. -/
theorem test_and : getV (after (regs [(1, 0x3C), (2, 0x0F)] (boot 0x8122))) 1 = 0x0C := by decide

/-- A10. -/
theorem test_xor : getV (after (regs [(1, 0xFF), (2, 0x0F)] (boot 0x8123))) 1 = 0xF0 := by decide

/-- A14, A15: the sums 255 and 256. -/
theorem test_add : getV (after (regs [(1, 0xFF), (15, 1)] (boot 0x8124))) 15 = 0 ∧
    getV (after (regs [(1, 0xFF), (2, 1)] (boot 0x8124))) 1 = 0 ∧
    getV (after (regs [(1, 0xFF), (2, 1)] (boot 0x8124))) 15 = 1 := by decide

/-- A17, A18: the addend is the old `V[15]`; with `x = 15` the result survives. -/
theorem test_add_flag_operand : getV (after (regs [(1, 0x10), (15, 1)] (boot 0x81F4))) 1 = 0x11 ∧
    getV (after (regs [(2, 0x20), (15, 0xF0)] (boot 0x8F24))) 15 = 0x10 := by decide

/-- A21, A22: equal operands do not borrow. -/
theorem test_sub : getV (after (regs [(1, 5), (2, 5)] (boot 0x8125))) 15 = 1 ∧
    getV (after (regs [(1, 5), (2, 7), (15, 1)] (boot 0x8125))) 1 = 0xFE ∧
    getV (after (regs [(1, 5), (2, 7), (15, 1)] (boot 0x8125))) 15 = 0 := by decide

/-- A29: the low bit, and `y` ignored. -/
theorem test_shr : getV (after (regs [(1, 4), (2, 0xFF)] (boot 0x8126))) 1 = 2 ∧
    getV (after (regs [(1, 5)] (boot 0x8106))) 15 = 1 := by decide

/-- A31, A32. -/
theorem test_subn : getV (after (regs [(1, 5), (2, 7)] (boot 0x8127))) 1 = 2 ∧
    getV (after (regs [(1, 5), (2, 7)] (boot 0x8127))) 15 = 1 ∧
    getV (after (regs [(1, 7), (2, 5), (15, 1)] (boot 0x8127))) 15 = 0 := by decide

/-- A35, A38. -/
theorem test_shl : getV (after (regs [(1, 0x81)] (boot 0x810E))) 1 = 2 ∧
    getV (after (regs [(1, 0x81)] (boot 0x810E))) 15 = 1 ∧
    getV (after (regs [(1, 1), (2, 0xFF)] (boot 0x812E))) 1 = 2 := by decide

/-- A41: with `kk = 0` the result is 0 for every byte drawn. -/
theorem test_rnd : getV (after (regs [(3, 0x55)] (boot 0xC300))) 3 = 0 := by
  have : getV (after (regs [(3, 0x55)] (boot 0xC300))) 3 = Config.randomByte 0 &&& 0 := by rfl
  rw [this]; simp

/-- M1. -/
theorem test_ldi : (after { boot 0xA2F0 with index := 0xFFFF }).index = 0x2F0 := by decide

/-- M4, M6: the sum 0xFFF does not pass the end; the 17-bit sum wraps. -/
theorem test_addi : getV (after (regs [(15, 1)] { boot 0xF31E with index := 0xFFF })) 15 = 0 ∧
    (after (regs [(3, 2)] { boot 0xF31E with index := 0xFFFF })).index = 1 ∧
    getV (after (regs [(3, 2)] { boot 0xF31E with index := 0xFFFF })) 15 = 1 := by decide

/-- M7: the old `V[15]` is added, then the flag is written. -/
theorem test_addi_flag_operand : (after (regs [(15, 0x10)] { boot 0xFF1E with index := 0x300 })).index = 0x310 ∧
    getV (after (regs [(15, 0x10)] { boot 0xFF1E with index := 0x300 })) 15 = 0 := by decide

/-- M9: the whole byte times 5. -/
theorem test_ldf : (after (regs [(2, 0xFF)] (boot 0xF229))).index = 0x4FB := by decide

/-- M11, the source's own example. -/
theorem test_bcd : readBytes (after (regs [(4, 156)] { boot 0xF433 with index := 0x300 })).mem 0x300 3 = [1, 5, 6] := by decide

/-- M15, M16: nothing is stored and nothing ticks. -/
theorem test_bcd_faults :
    (after (regs [(4, 0x7B)] { boot 0xF433 with index := 0xFFE, dt := 4 })).fault = some .addressOutOfRange ∧
    readByte (after (regs [(4, 0x7B)] { boot 0xF433 with index := 0xFFE, dt := 4 })).mem 0xFFE = 0 ∧
    (after (regs [(4, 0x7B)] { boot 0xF433 with index := 0xFFE, dt := 4 })).dt = 4 ∧
    (after (regs [(4, 0x7B)] { boot 0xF433 with index := 0x1FF })).fault = some .protectedWrite := by decide

/-- M19: `V[3]` is not stored. -/
theorem test_stm : readBytes (after (regs [(0, 0x11), (1, 0x22), (2, 0x33), (3, 0x44)] { boot 0xF255 with index := 0x300 })).mem 0x300 4 =
    [0x11, 0x22, 0x33, 0] := by decide

/-- M22, M23. -/
theorem test_stm_faults : (after { boot 0xFF55 with index := 0xFF1 }).fault = some .addressOutOfRange ∧
    (after { boot 0xF155 with index := 0x1FF }).fault = some .protectedWrite := by decide

/-- M25: glyph 0 of the font; reading below 0x200 is no fault. -/
theorem test_ldm : (List.map (getV (after (regs [(3, 0x77)] (boot 0xF265)))) [0, 1, 2, 3]) = [0xF0, 0x90, 0x90, 0x77] := by decide

/-- M28: no register is written. -/
theorem test_ldm_fault : (after { bytesAt 0xFFE [0xAA, 0xBB] (boot 0xF265) with index := 0xFFE }).fault = some .addressOutOfRange ∧
    getV (after { bytesAt 0xFFE [0xAA, 0xBB] (boot 0xF265) with index := 0xFFE }) 0 = 0 := by decide

/-- D1. -/
theorem test_cls : pixel (after (lit [(0, 0), (63, 31)] (boot 0x00E0))).fb 31 63 = false ∧
    (after (lit [(0, 0), (63, 31)] (boot 0x00E0))).redraw = true := by decide

/-- The state of vector D3: the sprite 0xFF at column 60. -/
def d3 : State := regs [(0, 0x3C)] { bytesAt 0x300 [0xFF] (boot 0xD011) with index := 0x300 }

/-- D3, the source's own example: columns 60 to 63 and 0 to 3 of row 0. -/
theorem test_drw_wraps : (List.finRange 64).filter (fun c => pixel (after d3).fb 0 c) = [0, 1, 2, 3, 60, 61, 62, 63] ∧
    getV (after d3) 15 = 0 := by decide

/-- D9 and D5: a collision turns the pixel off; bit 0 is the rightmost column. -/
theorem test_drw_collides :
    getV (after (lit [(10, 5)] (regs [(0, 10), (1, 5)] { bytesAt 0x300 [0xC0] (boot 0xD011) with index := 0x300 }))) 15 = 1 ∧
    pixel (after (lit [(10, 5)] (regs [(0, 10), (1, 5)] { bytesAt 0x300 [0xC0] (boot 0xD011) with index := 0x300 }))).fb 5 10 = false ∧
    pixel (after (regs [(0, 10), (1, 5)] { bytesAt 0x300 [0x01] (boot 0xD011) with index := 0x300 })).fb 5 17 = true := by decide

/-- K1, K6. -/
theorem test_skp : (after (press [10] (regs [(3, 10)] (boot 0xE39E)))).pc = 0x204 ∧
    (after (press [0] (regs [(3, 16)] (boot 0xE39E)))).fault = some .keyIndexOutOfRange := by decide

/-- K3, K4. -/
theorem test_sknp : (after (regs [(3, 10)] (boot 0xE3A1))).pc = 0x204 ∧
    (after (press [10] (regs [(3, 10)] (boot 0xE3A1)))).pc = 0x202 := by decide

/-- K14: the value before the tick of its own step. -/
theorem test_getdt : getV (after { boot 0xF407 with dt := 16 }) 4 = 16 ∧ (after { boot 0xF407 with dt := 16 }).dt = 15 := by decide

/-- K8: nothing changes, and no beep although the sound timer stands at 1. -/
theorem test_waitk_waits : (after { boot 0xF50A with dt := 9, st := 1 }).pc = 0x200 ∧
    (after { boot 0xF50A with dt := 9, st := 1 }).dt = 9 ∧ (after { boot 0xF50A with dt := 9, st := 1 }).st = 1 ∧
    (after { boot 0xF50A with dt := 9, st := 1 }).lastStep = some ⟨.awaitingInput, false, false⟩ := by decide

/-- K10. -/
theorem test_waitk : getV (after (press [7] { boot 0xF50A with dt := 9 })) 5 = 7 ∧
    (after (press [7] { boot 0xF50A with dt := 9 })).pc = 0x202 ∧ (after (press [7] { boot 0xF50A with dt := 9 })).dt = 8 := by
  decide

/-- K11: two keys, and the default KEY_PICK reports the lowest; under another KEY_PICK (R6) the other key is reported. -/
theorem test_waitk_two_keys : getV (after (press [9, 3] (boot 0xF50A))) 5 = 3 ∧
    getV (after (press [9, 3] { boot 0xF50A with params := ⟨defaultFont, [([3, 9], 9)]⟩ })) 5 = 9 := by decide

/-- K16. -/
theorem test_setdt : (after (regs [(4, 5)] (boot 0xF415))).dt = 4 := by decide

/-- K20, K21. -/
theorem test_setst : (after (regs [(4, 1)] (boot 0xF418))).lastStep = some ⟨.done, true, false⟩ ∧
    (after (regs [(4, 2)] (boot 0xF418))).lastStep = quiet ∧ (after (regs [(4, 2)] (boot 0xF418))).st = 1 := by decide

/-- X1 and H6: an unmatched word, in a machine with no program. -/
theorem test_unknown : (after { State.reset with dt := 2, st := 1 }).pc = 0x202 ∧
    (after { State.reset with dt := 2, st := 1 }).dt = 1 ∧
    (after { State.reset with dt := 2, st := 1 }).lastStep = some ⟨.done, true, true⟩ := by decide

/-- H5: the second load covers one byte. -/
theorem test_load_twice : (loadImage (loadImage State.reset [0x60, 0x01]) [0x61]).mem = [(0x200, 0x61), (0x201, 0x01)] := by decide

/-- R62: the first and the last glyph. -/
theorem test_font : readBytes [] 0x000 5 = [0xF0, 0x90, 0x90, 0x90, 0xF0] ∧
    readBytes [] 0x04B 6 = [0xF0, 0x80, 0xF0, 0x80, 0x80, 0x00] := by decide

/-- R6, R220: reset copies the FONT it is given, here 80 bytes 0x5A. -/
theorem test_font_parameter : readByte (State.resetWith ⟨Vector.replicate 80 0x5A, []⟩).mem 0x000 = 0x5A ∧
    readByte (State.resetWith ⟨Vector.replicate 80 0x5A, []⟩).mem 0x04F = 0x5A ∧
    readByte (State.resetWith ⟨Vector.replicate 80 0x5A, []⟩).mem 0x050 = 0 := by decide

/-- Log entry 18: after a reset no step counts as made, so the beep of a step before it is no longer read. -/
theorem test_beep_then_reset : soundTimerFired (after { boot 0x6000 with st := 1 }) = true ∧
    soundTimerFired (resetFrom (after { boot 0x6000 with st := 1 })) = false := by decide

/-- A write of the reset contents unlists the byte. -/
theorem test_canonical : writeByte (writeByte [] 0x300 5) 0x300 0 = [] ∧ Memory.wf State.reset.mem = true := by decide

/-! ### Witnesses: for each obligation with hypotheses, a state and operands that meet all of them -/

/-- The invariant holds of a state a program has been placed in. -/
theorem boot_inv : (boot 0x00E0).Inv where
  memWf := by decide
  low := fun a ha => readByte_writeBytes_outside _ (Or.inl ha)
  pcBound := by decide
  stackBound := fun _ h => absurd h (Nat.not_lt_zero _)

theorem boot_decodes : Decodes (boot 0x00E0) .cls := by decide

theorem witness_EncodeDecodeRoundTrip : decodeWord 0x8AB6 = .instr (.shr 10 11) := by decide

theorem witness_DecodeFollowsOpcodeMap : decodeWord 0xD015 = .instr (.drw 0 1 5) ∧
    (⟨0xF000, 0xD000⟩ : OpcodeRow) ∈ opcodeMap ∧ OpcodeRow.Matches ⟨0xF000, 0xD000⟩ 0xD015 := by decide

/-- One word of each of the six rows of R86. -/
theorem witness_UnmatchedWordsAreUnknown : decodeWord 0x00E1 = .unknown .family0 ∧ decodeWord 0x512F = .unknown .family5 ∧
    decodeWord 0x8AB8 = .unknown .family8 ∧ decodeWord 0x9121 = .unknown .family9 ∧
    decodeWord 0xE0A0 = .unknown .familyE ∧ decodeWord 0xFF66 = .unknown .familyF := by decide

/-- The lowest and the highest address a word is fetched at after reset. -/
theorem witness_StepRunsDecodedInstruction : (boot 0x00E0).fault = none ∧ Decodes (boot 0x00E0) .cls ∧
    (bootAt 0xFFE 0x6105).fault = none ∧ Decodes (bootAt 0xFFE 0x6105) (.ldk 1 5) := by decide

theorem witness_UnknownWordStep : (bootAt 0xFFE 0x5121).fault = none ∧ (bootAt 0xFFE 0x5121).pc.toNat + 1 ≤ 0xFFF ∧
    decodeBytes (readByte (bootAt 0xFFE 0x5121).mem 0xFFE) (readByte (bootAt 0xFFE 0x5121).mem 0xFFF) = .unknown .family5 := by
  decide

theorem witness_FetchPastMemoryFaults :
    ({ State.reset with pc := 0xFFF } : State).fault = none ∧ 0xFFF < ({ State.reset with pc := 0xFFF } : State).pc.toNat + 1 := by
  decide

/-- A halted engine. -/
def halted0 : State := { State.reset with fault := some .stackOverflow }

theorem witness_HaltedStepChangesNothing : halted0.fault = some .stackOverflow := by decide

/-- Each clause: a wait step, and a faulting step. -/
theorem witness_UndoneStepChangesNothing :
    (step (boot 0xF50A) = .next (after (boot 0xF50A)) ∧
      (after (boot 0xF50A)).lastStep = some ⟨.awaitingInput, false, false⟩ ∧ StepOutcome.awaitingInput ≠ .done) ∧
    (step (boot 0x00EE) = .next (after (boot 0x00EE)) ∧
      (after (boot 0x00EE)).lastStep = some ⟨.fault .stackUnderflow, false, false⟩) :=
  ⟨⟨eq_next_of_isNext (by decide), by decide, by decide⟩, eq_next_of_isNext (by decide), by decide⟩

/-- Each kind of fault, at the first value that raises it, and a step that raises none. -/
theorem witness_FaultsRaisedExactlyWhenDue :
    (step (boot 0x00E0) = .next (after (boot 0x00E0)) ∧ (boot 0x00E0).fault = none ∧ (after (boot 0x00E0)).fault = none) ∧
    (after { boot 0xD011 with index := 0x1000 }).fault = some .addressOutOfRange ∧
    (after { boot 0xF065 with index := 0x1000 }).fault = some .addressOutOfRange ∧
    (after { boot 0xF055 with index := 0x1000 }).fault = some .addressOutOfRange ∧
    (after { boot 0xF033 with index := 0xFFE }).fault = some .addressOutOfRange ∧
    (after { boot 0x2300 with sp := 16 }).fault = some .stackOverflow ∧
    (after (boot 0x00EE)).fault = some .stackUnderflow ∧
    (after { boot 0xF055 with index := 0x1FF }).fault = some .protectedWrite ∧
    (after { boot 0xF033 with index := 0x1FF }).fault = some .protectedWrite ∧
    (after (regs [(0, 16)] (boot 0xE09E))).fault = some .keyIndexOutOfRange ∧
    (after (regs [(0, 16)] (boot 0xE0A1))).fault = some .keyIndexOutOfRange :=
  ⟨⟨eq_next_of_isNext (by decide), by decide, by decide⟩, by decide, by decide, by decide, by decide, by decide, by decide,
    by decide, by decide, by decide, by decide⟩

/-- Each clause: an instruction that sets no timer, `Fx15`, `Fx18`. -/
theorem witness_CompletedStepTicksOnce :
    (step (boot 0x00E0) = .next (after (boot 0x00E0)) ∧ (after (boot 0x00E0)).lastStep = some ⟨.done, false, false⟩ ∧
      Decodes (boot 0x00E0) .cls) ∧
    (step (regs [(4, 1)] (boot 0xF415)) = .next (after (regs [(4, 1)] (boot 0xF415))) ∧
      Decodes (regs [(4, 1)] (boot 0xF415)) (.setdt 4)) ∧
    (step (regs [(4, 1)] (boot 0xF418)) = .next (after (regs [(4, 1)] (boot 0xF418))) ∧
      (after (regs [(4, 1)] (boot 0xF418))).lastStep = some ⟨.done, true, false⟩ ∧
      Decodes (regs [(4, 1)] (boot 0xF418)) (.setst 4)) :=
  ⟨⟨eq_next_of_isNext (by decide), by decide, by decide⟩, ⟨eq_next_of_isNext (by decide), by decide⟩,
    eq_next_of_isNext (by decide), by decide, by decide⟩

theorem witness_StepKeepsInvariant : (boot 0x00E0).Inv ∧ step (boot 0x00E0) = .next (after (boot 0x00E0)) :=
  ⟨boot_inv, eq_next_of_isNext (by decide)⟩

theorem witness_HostOperationsKeepInvariant : (boot 0x00E0).Inv ∧
    hostCallOn (boot 0x00E0) .step = .answered (after (boot 0x00E0)) (.outputs quiet) ∧
    hostCallOn (boot 0x00E0) (.loadProgram [0x60]) = .answered (loadImage (boot 0x00E0) [0x60]) .loaded :=
  ⟨boot_inv, by
    have h : step (boot 0x00E0) = .next (after (boot 0x00E0)) := eq_next_of_isNext (by decide)
    have hl : (after (boot 0x00E0)).lastStep = quiet := by decide
    simp only [hostCallOn, hostStep, h, hl], by rfl⟩

/-- The state of vector M18: a store at the lowest address allowed. -/
def m18 : State := regs [(4, 123)] { boot 0xF433 with index := 0x200 }

theorem witness_EngineNeverWritesBelowProgram : step m18 = .next (after m18) ∧ (after m18).mem ≠ m18.mem ∧ 0x1FF < 0x200 :=
  ⟨eq_next_of_isNext (by decide), by decide, by decide⟩

/-- A byte changed by each of the two stores, the last byte of each. -/
theorem witness_OnlyStoresChangeMemory :
    (exec (.bcd 4) m18 = .next (stateOf m18 (exec (.bcd 4) m18)) ∧
      readByte (stateOf m18 (exec (.bcd 4) m18)).mem 0x202 ≠ readByte m18.mem 0x202) ∧
    (exec (.stm 4) m18 = .next (stateOf m18 (exec (.stm 4) m18)) ∧
      readByte (stateOf m18 (exec (.stm 4) m18)).mem 0x204 ≠ readByte m18.mem 0x204) :=
  ⟨⟨eq_next_of_isNext (by decide), by decide⟩, eq_next_of_isNext (by decide), by decide⟩

/-- Each field changed by one of its writers. -/
theorem witness_OnlyNamedWritersChangeState :
    (isNext (exec (.ldi 5) m18) = true ∧ (stateOf m18 (exec (.ldi 5) m18)).index ≠ m18.index) ∧
    (stateOf m18 (exec (.call 5) m18)).sp ≠ m18.sp ∧ (stateOf m18 (exec (.call 5) m18)).stack ≠ m18.stack ∧
    (stateOf d3 (exec (.drw 0 1 1) d3)).fb ≠ d3.fb ∧ (stateOf m18 (exec (.rnd 1 2) m18)).draws ≠ m18.draws ∧
    (stateOf m18 (exec .ret m18)).fault ≠ m18.fault := by
  refine ⟨by decide, by decide, by decide, ?_, by decide, by decide⟩
  intro h
  have h1 : pixel (stateOf d3 (exec (.drw 0 1 1) d3)).fb 0 0 = pixel d3.fb 0 0 := by rw [h]
  revert h1; decide

theorem witness_FlagRegisterWriters :
    exec (.add 1 2) (regs [(1, 0xFF), (2, 1)] State.reset) =
      .next (stateOf State.reset (exec (.add 1 2) (regs [(1, 0xFF), (2, 1)] State.reset))) ∧
    getV (stateOf State.reset (exec (.add 1 2) (regs [(1, 0xFF), (2, 1)] State.reset))) 15 ≠
      getV (regs [(1, 0xFF), (2, 1)] State.reset) 15 := by
  refine ⟨?_, by decide⟩
  exact rfl

theorem witness_StepLeavesKeysAndKeepsRedraw :
    step { boot 0x6A2C with redraw := true } = .next (after { boot 0x6A2C with redraw := true }) ∧
    ({ boot 0x6A2C with redraw := true } : State).redraw = true := ⟨eq_next_of_isNext (by decide), by decide⟩

/-- Two states that differ in the sound timer and the redraw flag. -/
theorem witness_SoundTimerAndRedrawInvisible :
    SameButSoundAndRedraw (boot 0xF407) { boot 0xF407 with st := 1, redraw := true } ∧
    step (boot 0xF407) = .next (after (boot 0xF407)) ∧
    step { boot 0xF407 with st := 1, redraw := true } = .next (after { boot 0xF407 with st := 1, redraw := true }) :=
  ⟨rfl, eq_next_of_isNext (by decide), eq_next_of_isNext (by decide)⟩

/-- Two states that differ in the slot a call is about to write, and a return that reads the one live slot below it. -/
theorem witness_DeadStackSlotsInvisible :
    SameButDeadSlots (boot 0x2300) { boot 0x2300 with stack := Vector.replicate 16 7 } ∧
    step (boot 0x2300) = .next (after (boot 0x2300)) ∧
    step { boot 0x2300 with stack := Vector.replicate 16 7 } = .next (after { boot 0x2300 with stack := Vector.replicate 16 7 }) ∧
    SameButDeadSlots { boot 0x00EE with sp := 1 } { boot 0x00EE with sp := 1, stack := (Vector.replicate 16 0).set 1 7 } ∧
    isNext (step { boot 0x00EE with sp := 1 }) = true :=
  ⟨⟨rfl, fun _ h => absurd h (Nat.not_lt_zero _)⟩, eq_next_of_isNext (by decide), eq_next_of_isNext (by decide),
    ⟨rfl, fun k h => by
      have : k = 0 := Fin.ext (by simpa using h)
      subst this; rfl⟩, by decide⟩

/-- Each clause at its boundary: 0, 15 and 16 entries. -/
theorem witness_CallResult : famOf 0x2ABC = 0x2 ∧ State.reset.sp.val < 16 ∧ ({ State.reset with sp := 15 } : State).sp.val < 16 ∧
    ({ State.reset with sp := 16 } : State).sp.val = 16 := by decide

/-- Each clause at its boundary: 16, 1 and 0 entries. -/
theorem witness_ReturnResult : ({ State.reset with sp := 16 } : State).sp.val = (15 : Fin 16).val + 1 ∧
    ({ State.reset with sp := 1 } : State).sp.val = (0 : Fin 16).val + 1 ∧ State.reset.sp.val = 0 := by decide

theorem witness_CallThenReturn : State.reset.sp.val < 16 ∧
    exec (.call 0x300) State.reset = .next (stateOf State.reset (exec (.call 0x300) State.reset)) ∧
    (stateOf State.reset (exec (.call 0x300) State.reset)).sp = 1 := ⟨by decide, rfl, by decide⟩

/-- Words of the four families, both ways where a nibble decides. -/
theorem witness_RegisterSkipResults : famOf 0x3A05 = 0x3 ∧ famOf 0x4FFF = 0x4 ∧ (famOf 0x5120 = 0x5 ∧ nOf 0x5120 = 0) ∧
    (famOf 0x512F = 0x5 ∧ nOf 0x512F ≠ 0) ∧ (famOf 0x9AB0 = 0x9 ∧ nOf 0x9AB0 = 0) ∧ (famOf 0x9AB1 = 0x9 ∧ nOf 0x9AB1 ≠ 0) := by
  decide

/-- Each clause at its boundary: key 15, index 16. -/
theorem witness_KeySkipResults : (getV (regs [(3, 15)] State.reset) 3).toNat = (15 : Key).val ∧
    15 < (getV (regs [(3, 16)] State.reset) 3).toNat := by decide

theorem witness_JumpResult : famOf 0x1FFF = 0x1 := by decide

theorem witness_IndexedJumpResult : famOf 0xBFFF = 0xB := by decide

theorem witness_AddImmediateResult : famOf 0x7305 = 0x7 := by decide

/-- The words the decoding clauses of `LoadAndLogicResults` speak of. -/
theorem witness_LoadAndLogicResults : famOf 0x6A2C = 0x6 ∧ (famOf 0x8120 = 0x8 ∧ nOf 0x8120 = 0x0) ∧ nOf 0x8AB1 = 0x1 ∧
    nOf 0x8AB2 = 0x2 ∧ nOf 0x8AB3 = 0x3 := by decide

/-- A word of each decoding clause. -/
theorem witness_IndexLoadResults : famOf 0xA2F0 = 0xA ∧ (famOf 0xF529 = 0xF ∧ kkOf 0xF529 = 0x29) := by decide

theorem witness_TimerAccessResults : (famOf 0xF007 = 0xF ∧ kkOf 0xF007 = 0x07) ∧ kkOf 0xF215 = 0x15 ∧ kkOf 0xF318 = 0x18 := by decide

/-- The lowest and the highest place for three bytes. -/
theorem witness_DecimalStoreResult : Memory.wf m18.mem = true ∧ 0x200 ≤ m18.index.toNat ∧ m18.index.toNat + 2 ≤ 0xFFF ∧
    0x200 ≤ ({ m18 with index := 0xFFD } : State).index.toNat ∧ ({ m18 with index := 0xFFD } : State).index.toNat + 2 ≤ 0xFFF := by
  decide

/-- The lowest place, and the highest for all sixteen registers. -/
theorem witness_RegisterStoreResult : Memory.wf m18.mem = true ∧ 0x200 ≤ m18.index.toNat ∧
    m18.index.toNat + (15 : Reg).val ≤ 0xFFF ∧ 0x200 ≤ ({ m18 with index := 0xFF0 } : State).index.toNat ∧
    ({ m18 with index := 0xFF0 } : State).index.toNat + (15 : Reg).val ≤ 0xFFF := by decide

theorem witness_RegisterLoadResult : State.reset.index.toNat + (15 : Reg).val ≤ 0xFFF ∧
    ({ State.reset with index := 0xFFF } : State).index.toNat + (0 : Reg).val ≤ 0xFFF := by decide

/-- Each clause at the first value past its range. -/
theorem witness_MemoryInstructionFaults : 0xFFF < ({ State.reset with index := 0xFFE } : State).index.toNat + 2 ∧
    ({ State.reset with index := 0x1FF } : State).index.toNat < 0x200 ∧
    0xFFF < ({ State.reset with index := 0xFF1 } : State).index.toNat + (15 : Reg).val ∧
    0xFFF < ({ State.reset with index := 0x1000 } : State).index.toNat + (0 : Reg).val ∧
    1 ≤ (15 : BitVec 4).toNat ∧ 0xFFF < ({ State.reset with index := 0xFF2 } : State).index.toNat + (15 : BitVec 4).toNat - 1 := by
  decide

theorem witness_StoreSeenByNextFetch : Memory.wf m18.mem = true ∧ 0x200 ≤ m18.index.toNat ∧ m18.index.toNat + (1 : Reg).val ≤ 0xFFF ∧
    exec (.stm 1) m18 = .next (stateOf m18 (exec (.stm 1) m18)) ∧ (1 : Reg).val = (0 : Reg).val + 1 ∧ (1 : Reg) ≤ 1 ∧
    (0x200 : Word).toNat = m18.index.toNat + (0 : Reg).val :=
  ⟨by decide, by decide, by decide, eq_next_of_isNext (by decide), by decide, by decide, by decide⟩

/-- No row at any `I`; fifteen rows at the highest place; a bit on a lit pixel; all bits on unlit ones. -/
theorem witness_DrawResult : ((0 : BitVec 4) = 0 ∨ ({ State.reset with index := 0xFFFF } : State).index.toNat + 0 - 1 ≤ 0xFFF) ∧
    ((15 : BitVec 4) = 0 ∨ ({ State.reset with index := 0xFF1 } : State).index.toNat + (15 : BitVec 4).toNat - 1 ≤ 0xFFF) ∧
    (spriteBit (lit [(60, 0)] d3) 0 0 = true ∧
      pixel (lit [(60, 0)] d3).fb (targetPixel (lit [(60, 0)] d3) 0 1 0 0).1 (targetPixel (lit [(60, 0)] d3) 0 1 0 0).2 = true) ∧
    (spriteBit d3 0 7 = true ∧ ∀ r c, r < (1 : BitVec 4).toNat → c < 8 → spriteBit d3 r c = true →
      pixel d3.fb (targetPixel d3 0 1 r c).1 (targetPixel d3 0 1 r c).2 = false) :=
  ⟨by decide, by decide, by decide, by decide, fun _ _ _ _ _ => pixel_blankFrame _ _⟩

theorem witness_DrawTwiceRestores : (0 : Reg) ≠ 15 ∧ (1 : Reg) ≠ 15 ∧
    ((1 : BitVec 4) = 0 ∨ d3.index.toNat + (1 : BitVec 4).toNat - 1 ≤ 0xFFF) ∧
    exec (.drw 0 1 1) d3 = .next (after d3) ∧ isNext (exec (.drw 0 1 1) (after d3)) = true :=
  ⟨by decide, by decide, by decide, by
    have h : step d3 = exec (.drw 0 1 1) d3 := step_of_instr (op := 0xD011) (by decide) (by decide) (by decide)
    rw [← h]; exact eq_next_of_isNext (by decide), by decide⟩

/-- The sprite has a bit set in the state of `witness_DrawTwiceRestores`. -/
theorem witness_SecondDrawAlwaysCollides : (0 : Nat) < (1 : BitVec 4).toNat ∧ (0 : Nat) < 8 ∧ spriteBit d3 0 0 = true := by decide

theorem witness_KeyWaitChangesNothing : ∀ k, keyDown State.reset k = false := by decide

/-- One key pressed, and two. -/
theorem witness_KeyWaitCompletes : keyDown (press [15] State.reset) 15 = true ∧
    (keyDown (press [3, 9] State.reset) 3 = true ∧ keyDown (press [3, 9] State.reset) 9 = true) := by decide

/-- The default KEY_PICK, with two keys pressed. -/
theorem witness_LowestKeyByDefault : (press [9, 3] State.reset).params.keyPick = [] ∧
    (keyDown (press [9, 3] State.reset) 3 = true ∧ keyDown (press [9, 3] State.reset) 9 = true) := by decide

/-- The highest key is a choice function, and two keys are pressed. -/
theorem witness_EveryKeyChoiceIsAParameter : (∀ l : List Key, l ≠ [] → l.getLastD 0 ∈ l) ∧
    keyDown (press [9, 3] State.reset) 9 = true :=
  ⟨fun l h => by rw [List.getLastD_eq_getLast?, List.getLast?_eq_some_getLast h]; exact List.getLast_mem h, by decide⟩

/-- Each clause: an instruction, a step, and an operation of the host. -/
theorem witness_ParametersNeverChange : isNext (exec .cls (boot 0x00E0)) = true ∧ step (boot 0x00E0) = .next (after (boot 0x00E0)) ∧
    hostCallOn State.reset .restart = .answered (resetFrom State.reset) .unit :=
  ⟨by decide, eq_next_of_isNext (by decide), rfl⟩

/-- Images of 3584 and 3585 bytes, after reset. -/
theorem witness_LoadProgramResult : Memory.wf State.reset.mem = true ∧ State.reset.lastStep = none ∧
    (List.replicate 3584 (1 : Byte)).length ≤ 3584 ∧ 3584 < (List.replicate 3585 (1 : Byte)).length := by
  simp only [List.length_replicate]; decide

/-- Each clause: another operation than reset, a step that has been made, key index 16. -/
theorem witness_BoundaryRefusals : HostCall.step ≠ .restart ∧
    hostCallOn (boot 0x00E0) .step = .answered (after (boot 0x00E0)) (.outputs quiet) ∧ 15 < 16 :=
  ⟨by decide, witness_HostOperationsKeepInvariant.2.1, by decide⟩

/-- The redraw flag cleared by its own operation, and pixels changed by a step. -/
theorem witness_DisplayOperations :
    (hostCallOn { State.reset with redraw := true } .clearRedrawPending = .answered { State.reset with redraw := false } .unit) ∧
    (hostCallOn d3 .step = .answered (after d3) (.outputs quiet) ∧ pixel (after d3).fb 0 60 ≠ pixel d3.fb 0 60) :=
  ⟨rfl, by
    have h : step d3 = .next (after d3) := eq_next_of_isNext (by decide)
    have hl : (after d3).lastStep = quiet := by decide
    simp only [hostCallOn, hostStep, h, hl], by decide⟩

/-- No step yet; a step that beeps by the tick alone (the state of vector K24). -/
theorem witness_SoundTimerFiredReading : State.reset.lastStep = none ∧
    step { boot 0x6000 with dt := 1, st := 1 } = .next (after { boot 0x6000 with dt := 1, st := 1 }) ∧
    soundTimerFired (after { boot 0x6000 with dt := 1, st := 1 }) = true ∧
    Decodes { boot 0x6000 with dt := 1, st := 1 } (.ldk 0 0) :=
  ⟨by decide, eq_next_of_isNext (by decide), by decide, by decide⟩

end Sys2Proof.Tests
end

section
/-! PROOFS. The parameters FONT and KEY_PICK (spec 00_scope.md R6): nothing changes them, and what KEY_PICK makes `Fx0A` report. -/

namespace Sys2Proof.Machine

/-! ### FONT and KEY_PICK never change (R6, R34) -/

theorem exec_params {i : Instr} {s t : State} (h : exec i s = .next t) : t.params = s.params := by
  rcases exec_ends h with ⟨u, rfl, _, _, hp, _⟩ | rfl | ⟨k, rfl⟩
  · exact hp
  · rfl
  · rfl

theorem execUnknown_params {s t : State} (h : execUnknown s = .next t) : t.params = s.params := by
  rw [execUnknown, completeWith_next] at h
  subst h
  rfl

theorem step_params {s t : State} (h : step s = .next t) : t.params = s.params := by
  rcases step_cases h with ⟨k, _, rfl⟩ | ⟨_, _, rfl⟩ | ⟨op, why, _, _, _, hu⟩ | ⟨op, i, _, _, _, hi⟩
  · rfl
  · rfl
  · exact execUnknown_params hu
  · exact exec_params hi

/-- What an answered operation of the host does to the state (R196): one of the five that act, with the condition under which it
acts, or nothing. -/
inductive HostEffect (s : State) : HostCall → State → Prop
  | restart : HostEffect s .restart (resetFrom s)
  | load (bytes : Image) (hs : s.lastStep = none) (hb : bytes.wellFormed = true) :
      HostEffect s (.loadProgram bytes) (loadImage s bytes)
  | step (t : State) (h : Machine.step s = .next t) : HostEffect s .step t
  | clearRedraw : HostEffect s .clearRedrawPending { s with redraw := false }
  | setKey (index : Nat) (pressed : Bool) (h : index < 16) :
      HostEffect s (.setKey index pressed) { s with keys := s.keys.set index pressed }
  | unchanged (c : HostCall) : HostEffect s c s

theorem hostLoad_effect {s t : State} {bytes : Image} {v : HostValue} (h : hostLoad s bytes = .answered t v) :
    HostEffect s (.loadProgram bytes) t := by
  unfold hostLoad at h
  split at h
  · cases h
  · rename_i hs
    split at h <;> cases h
    · exact .load bytes (by simpa using hs) ‹_›
    · exact .unchanged _

theorem hostStep_effect {s t : State} {v : HostValue} (h : hostStep s = .answered t v) : HostEffect s .step t := by
  unfold hostStep at h
  split at h <;> cases h
  · exact .step _ ‹_›
  · exact .unchanged _

theorem hostSetKey_effect {s t : State} {index : Nat} {pressed : Bool} {v : HostValue}
    (h : hostSetKey s index pressed = .answered t v) : HostEffect s (.setKey index pressed) t := by
  unfold hostSetKey at h
  split at h <;> cases h
  exact .setKey index pressed ‹_›

theorem hostCallOn_effect {s t : State} {c : HostCall} {v : HostValue} (h : hostCallOn s c = .answered t v) :
    HostEffect s c t := by
  cases c with
  | restart => cases h; exact .restart
  | loadProgram bytes => exact hostLoad_effect h
  | step => exact hostStep_effect h
  | framebuffer => cases h; exact .unchanged _
  | redrawPending => cases h; exact .unchanged _
  | clearRedrawPending => cases h; exact .clearRedraw
  | setKey index pressed => exact hostSetKey_effect h
  | soundTimerFired => cases h; exact .unchanged _

theorem HostEffect.params {s t : State} {c : HostCall} (h : HostEffect s c t) : t.params = s.params := by
  cases h with
  | step t h => exact step_params h
  | restart | load | clearRedraw | setKey | unchanged => rfl

/-- Settles O58: an instruction by the ways it ends, a step by what it runs, a host operation by its effect. -/
theorem parametersNeverChange : Obligations.ParametersNeverChange :=
  ⟨fun _ _ _ h => exec_params h, fun _ _ h => step_params h, fun _ _ _ _ h => (hostCallOn_effect h).params⟩

/-! ### What KEY_PICK makes `Fx0A` report (R6, R173) -/

theorem pressedKeys_ne_nil {s : State} (h : ∃ k, keyDown s k = true) : pressedKeys s ≠ [] := by
  obtain ⟨k, hk⟩ := h
  exact List.ne_nil_of_mem ((mem_pressedKeys s k).2 hk)

/-- With a key pressed every KEY_PICK picks one (R173). -/
theorem exists_keyPick {s : State} (table : Config.KeyPick) (h : ∃ k, keyDown s k = true) :
    ∃ k, keyPick table (pressedKeys s) = some k :=
  Option.ne_none_iff_exists'.1 fun hn => pressedKeys_ne_nil h (keyPick_eq_none.1 hn)

/-- `Fx0A` writes the index of the key that KEY_PICK picks (R173). -/
theorem waitk_writes_picked {s : State} {k : Key} (h : keyPick s.params.keyPick (pressedKeys s) = some k) (x : Reg) :
    ∃ b : Byte, b.toNat = k.val ∧ WritesRegister (.waitk x) s x b := by
  refine ⟨BitVec.ofNat 8 k.val, ?_, writeResult_spec ?_⟩
  · rw [BitVec.toNat_ofNat]
    omega
  · simp only [exec, execWaitk, h, writeResult]

/-- Settles O59: under the empty table the key picked is a pressed one and no pressed key is lower. -/
theorem lowestKeyByDefault : Obligations.LowestKeyByDefault := by
  refine ⟨rfl, fun s x hd hk => ?_⟩
  obtain ⟨k, hpick⟩ := exists_keyPick s.params.keyPick hk
  obtain ⟨b, hb, hw⟩ := waitk_writes_picked hpick x
  rw [hd] at hpick
  exact ⟨k, b, (mem_pressedKeys s k).1 (keyPick_mem hpick), fun _ hj => keyPick_default hpick hj, hb, hw⟩

/-- Settles O60: the table that lists every set of keys with the choice made for it. -/
theorem everyKeyChoiceIsAParameter : Obligations.EveryKeyChoiceIsAParameter := by
  intro choose hc
  obtain ⟨table, htable⟩ := keyPick_of_choice choose hc
  refine ⟨table, fun s x hs hk => waitk_writes_picked ?_ x⟩
  rw [hs]
  exact htable s (pressedKeys_ne_nil hk)

end Sys2Proof.Machine
end

section
/-! PROOFS. The effect of an instruction by its shape, said once, and from it the writers of each piece of state (spec 10_state.md R20
to R32). -/

namespace Sys2Proof.Machine

/-! ### Calls and returns by the stack pointer (R120, R122) -/

theorem execCall_of_lt {s : State} (hs : s.sp.val < 16) (nnn : BitVec 12) : execCall nnn s =
    complete { s with
      stack := s.stack.set s.sp.val s.pc, sp := ⟨s.sp.val + 1, Nat.succ_lt_succ hs⟩, pc := zextNnn nnn } := by
  simp [execCall, push, hs]

theorem execCall_of_full {s : State} (hs : s.sp.val = 16) (nnn : BitVec 12) : execCall nnn s = raise .stackOverflow s := by
  simp [execCall, push_eq_none.2 hs]

theorem execRet_of_empty {s : State} (hs : s.sp.val = 0) : execRet s = raise .stackUnderflow s := by
  simp [execRet, pop_eq_none.2 hs]

theorem execRet_of_succ {s : State} {k : Nat} (hk : k < 16) (hs : s.sp.val = k + 1) :
    execRet s = complete { s with sp := ⟨k, by omega⟩, pc := s.stack[k] + 2 } := by
  cases hp : pop s with
  | none => exact absurd (pop_eq_none.1 hp) (by omega)
  | some p =>
    obtain ⟨j, hj, hs', hw, ht⟩ := pop_eq_some hp
    obtain rfl : j = k := by omega
    simp [execRet, hp, hw, ht]

/-! ### The key instructions by the key they find (R170, R173) -/

theorem skipOnKey_of_none {s : State} {x : Reg} (hk : keyOf (getV s x) = none) (level : Bool) :
    skipOnKey s x level = raise .keyIndexOutOfRange s := by
  simp [skipOnKey, hk]

theorem skipOnKey_of_some {s : State} {x : Reg} {k : Key} (hk : keyOf (getV s x) = some k) (level : Bool) :
    skipOnKey s x level = complete (skipWhen (decide (keyDown s k = level)) s) := by
  simp [skipOnKey, hk]

theorem execWaitk_of_none {s : State} (hk : keyPick s.params.keyPick (pressedKeys s) = none) (x : Reg) :
    execWaitk x s = awaitInput s := by
  simp [execWaitk, hk]

theorem execWaitk_of_some {s : State} {k : Key} (hk : keyPick s.params.keyPick (pressedKeys s) = some k) (x : Reg) :
    execWaitk x s = complete (advance (setV s x (BitVec.ofNat 8 k.val)) 2) := by
  simp [execWaitk, hk]

/-! ### The step by the latch and the fetch (R100) -/

theorem step_of_fault {s : State} {k : Fault} (hf : s.fault = some k) : step s = reportHalted k s := by
  simp [step, hf]

theorem step_of_fetch_none {s : State} (hf : s.fault = none) (hw : fetch s = none) : step s = raise .addressOutOfRange s := by
  simp [step, hf, hw]

theorem step_of_fetch_some {s : State} {op : Word} (hf : s.fault = none) (hw : fetch s = some op) :
    step s = runWord op s := by
  simp [step, hf, hw]

/-! ### The effect of an instruction, by its shape -/

/-- The instructions that write one result to `V[x]` and touch nothing else but `pc` (R130 to R135, R172, R173). -/
def WritesOnly (x : Reg) (i : Instr) : Prop :=
  (∃ kk, i = .ldk x kk ∨ i = .addk x kk) ∨ (∃ y, i = .mov x y ∨ i = .or x y ∨ i = .and x y ∨ i = .xor x y) ∨
    i = .getdt x ∨ i = .waitk x

/-- The instructions that write a flag and then a result to `V[x]` (R136 to R140). -/
def WritesFlagThen (x : Reg) (i : Instr) : Prop :=
  ∃ y, i = .add x y ∨ i = .sub x y ∨ i = .shr x y ∨ i = .subn x y ∨ i = .shl x y

/-- The instructions that move `pc` on by 2 or 4 and do nothing else (R125 to R128, R170, R171). -/
def Skips (i : Instr) : Prop :=
  (∃ x kk, i = .sek x kk ∨ i = .snek x kk) ∨ (∃ x y, i = .se x y ∨ i = .sne x y) ∨ ∃ x, i = .skp x ∨ i = .sknp x

/-- The instructions that can take a fatal fault (R180). -/
def MayFault (i : Instr) : Prop :=
  (∃ nnn, i = .call nnn) ∨ i = .ret ∨ (∃ x, i = .skp x) ∨ (∃ x, i = .sknp x) ∨ (∃ x y n, i = .drw x y n) ∨
    (∃ x, i = .bcd x) ∨ (∃ x, i = .stm x) ∨ ∃ x, i = .ldm x

/-- The effect `u` that a completed instruction has on `s`, before the tick: which fields it writes and, for `pc` and the stack, the
value written. A register result, a flag, a sprite and the bytes moved stand for any value. -/
inductive InstrEffect (s : State) : Instr → State → Prop
  | result {i : Instr} (x : Reg) (b : Byte) (hi : WritesOnly x i) : InstrEffect s i (advance (setV s x b) 2)
  | random (x : Reg) (kk b : Byte) :
      InstrEffect s (.rnd x kk) (advance (setV { s with draws := s.draws + 1 } x b) 2)
  | flagAndResult {i : Instr} (x : Reg) (f b : Byte) (hi : WritesFlagThen x i) :
      InstrEffect s i (advance (setFlagThenResult s f x b) 2)
  | skip {i : Instr} (c : Bool) (hi : Skips i) : InstrEffect s i (skipWhen c s)
  | jump (nnn : BitVec 12) : InstrEffect s (.jp nnn) { s with pc := zextNnn nnn }
  | indexedJump (nnn : BitVec 12) : InstrEffect s (.jpv0 nnn) { s with pc := zextNnn nnn + zextByte (getV s 0) }
  | call (nnn : BitVec 12) (h : s.sp.val < 16) : InstrEffect s (.call nnn)
      { s with stack := s.stack.set s.sp.val s.pc, sp := ⟨s.sp.val + 1, Nat.succ_lt_succ h⟩, pc := zextNnn nnn }
  | ret (k : Nat) (hk : k < 16) (h : s.sp.val = k + 1) :
      InstrEffect s .ret { s with sp := ⟨k, by omega⟩, pc := s.stack[k] + 2 }
  | loadIndex (nnn : BitVec 12) : InstrEffect s (.ldi nnn) (advance { s with index := zextNnn nnn } 2)
  | loadGlyph (x : Reg) : InstrEffect s (.ldf x) (advance { s with index := zextByte (getV s x) * 5 } 2)
  | addIndex (x : Reg) (f : Byte) (w : Word) : InstrEffect s (.addi x) (advance { setV s flagReg f with index := w } 2)
  | clear : InstrEffect s .cls (advance { s with fb := blankFrame, redraw := true } 2)
  | draw (x y : Reg) (n : BitVec 4) (f : Byte) (fb : Frame) :
      InstrEffect s (.drw x y n) (advance { setV s flagReg f with fb := fb, redraw := true } 2)
  | store {i : Instr} (bytes : List Byte) (hi : (∃ x, i = .bcd x) ∨ ∃ x, i = .stm x) :
      InstrEffect s i (advance { s with mem := writeBytes s.mem (baseAddr s) bytes } 2)
  | loadRegs (x : Reg) (bytes : List Byte) (hb : bytes.length = x.val + 1) :
      InstrEffect s (.ldm x) (advance (setFirstRegs s bytes) 2)
  | setDelay (x : Reg) : InstrEffect s (.setdt x) (advance { s with dt := getV s x } 2)
  | setSound (x : Reg) : InstrEffect s (.setst x) (advance { s with st := getV s x } 2)

/-- What an instruction that answers `t` has done (R108): its effect and the tick, or a wait, or a fatal fault. -/
inductive InstrRuns (i : Instr) (s t : State) : Prop
  | done (u : State) (he : InstrEffect s i u) (h : t = { tick u with lastStep := some ⟨.done, beepOf u, false⟩ })
  | wait (x : Reg) (hi : i = .waitk x) (h : t = { s with lastStep := some ⟨.awaitingInput, false, false⟩ })
  | fault (k : Fault) (hi : MayFault i) (h : t = { s with fault := some k, lastStep := some ⟨.fault k, false, false⟩ })

theorem InstrRuns.of_complete {i : Instr} {s t u : State} (he : InstrEffect s i u) (h : complete u = .next t) :
    InstrRuns i s t := .done u he ((complete_next u t).1 h)

theorem InstrRuns.of_raise {i : Instr} {s t : State} {k : Fault} (hi : MayFault i) (h : raise k s = .next t) :
    InstrRuns i s t := .fault k hi ((raise_next k s t).1 h)

/-- An instruction whose check comes before its effect. -/
theorem InstrRuns.of_unlessFault {i : Instr} {s t u : State} {check : Option Fault} (hi : MayFault i)
    (he : InstrEffect s i u) (h : unlessFault check s (complete u) = .next t) : InstrRuns i s t := by
  rcases unlessFault_next.1 h with ⟨k, _, hr⟩ | ⟨_, hc⟩
  · exact .of_raise hi hr
  · exact .of_complete he hc

theorem InstrRuns.of_skipOnKey {i : Instr} {s t : State} {x : Reg} {level : Bool} (hf : MayFault i) (hs : Skips i)
    (h : skipOnKey s x level = .next t) : InstrRuns i s t := by
  rcases hk : keyOf (getV s x) with _ | k
  · rw [skipOnKey_of_none hk] at h
    exact .of_raise hf h
  · rw [skipOnKey_of_some hk] at h
    exact .of_complete (.skip _ hs) h

theorem execCall_runs {nnn : BitVec 12} {s t : State} (h : execCall nnn s = .next t) : InstrRuns (.call nnn) s t := by
  by_cases hs : s.sp.val < 16
  · rw [execCall_of_lt hs] at h
    exact .of_complete (.call nnn hs) h
  · rw [execCall_of_full (by omega)] at h
    exact .of_raise (by simp [MayFault]) h

theorem execRet_runs {s t : State} (h : execRet s = .next t) : InstrRuns .ret s t := by
  rcases hs : s.sp.val with _ | k
  · rw [execRet_of_empty hs] at h
    exact .of_raise (by simp [MayFault]) h
  · have hk : k < 16 := by omega
    rw [execRet_of_succ hk hs] at h
    exact .of_complete (.ret k hk hs) h

theorem execWaitk_runs {x : Reg} {s t : State} (h : execWaitk x s = .next t) : InstrRuns (.waitk x) s t := by
  rcases hk : keyPick s.params.keyPick (pressedKeys s) with _ | k
  · rw [execWaitk_of_none hk] at h
    exact .wait x rfl ((awaitInput_next s t).1 h)
  · rw [execWaitk_of_some hk] at h
    exact .of_complete (.result x _ (by simp [WritesOnly])) h

/-- Every instruction does what `InstrRuns` says. -/
theorem exec_runs {i : Instr} {s t : State} (h : exec i s = .next t) : InstrRuns i s t := by
  cases i with
  | cls => exact .of_complete .clear h
  | ret => exact execRet_runs h
  | jp nnn => exact .of_complete (.jump nnn) h
  | call nnn => exact execCall_runs h
  | ldi nnn => exact .of_complete (.loadIndex nnn) h
  | jpv0 nnn => exact .of_complete (.indexedJump nnn) h
  | rnd x kk => exact .of_complete (.random x kk _) h
  | drw x y n => exact .of_unlessFault (by simp [MayFault]) (.draw x y n _ _) h
  | skp x => exact .of_skipOnKey (by simp [MayFault]) (by simp [Skips]) h
  | sknp x => exact .of_skipOnKey (by simp [MayFault]) (by simp [Skips]) h
  | waitk x => exact execWaitk_runs h
  | setdt x => exact .of_complete (.setDelay x) h
  | setst x => exact .of_complete (.setSound x) h
  | addi x => exact .of_complete (.addIndex x _ _) h
  | ldf x => exact .of_complete (.loadGlyph x) h
  | bcd x => exact .of_unlessFault (by simp [MayFault]) (.store _ (by simp)) h
  | stm x => exact .of_unlessFault (by simp [MayFault]) (.store _ (by simp)) h
  | ldm x => exact .of_unlessFault (by simp [MayFault]) (.loadRegs x _ (length_dataBytes _ _)) h
  | sek | snek | se | sne => exact .of_complete (.skip _ (by simp [Skips])) h
  | ldk x | addk x | mov x | or x | and x | xor x | getdt x =>
    exact .of_complete (.result x _ (by simp [WritesOnly])) h
  | add x | sub x | shr x | subn x | shl x =>
    exact .of_complete (.flagAndResult x _ _ (by simp [WritesFlagThen])) h

/-! ### The writers of each piece of state (R21 to R32) -/

/-- What a completed instruction has changed names the instruction: each shape shows the fields it writes, and no shape the latch. -/
theorem InstrEffect.writers {i : Instr} {s u : State} (h : InstrEffect s i u) :
    (u.index ≠ s.index → (∃ nnn, i = .ldi nnn) ∨ (∃ x, i = .addi x) ∨ (∃ x, i = .ldf x)) ∧
    (u.sp ≠ s.sp → (∃ nnn, i = .call nnn) ∨ i = .ret) ∧
    (u.stack ≠ s.stack → ∃ nnn, i = .call nnn) ∧
    (u.fb ≠ s.fb → i = .cls ∨ ∃ x y n, i = .drw x y n) ∧
    (u.draws ≠ s.draws → ∃ x kk, i = .rnd x kk) ∧ u.fault = s.fault := by
  cases h <;> simp

/-- Settles O20: a wait changes none of these, a fault only the latch, and an effect what its shape says. -/
theorem onlyNamedWritersChangeState : Obligations.OnlyNamedWritersChangeState := by
  intro i s t h
  cases exec_runs h with
  | done u he h =>
    obtain ⟨hindex, hsp, hstack, hfb, hdraws, hfault⟩ := he.writers
    subst h
    exact ⟨hindex, hsp, hstack, hfb, hdraws, fun hne => absurd hfault hne⟩
  | wait x hi h => simp [h]
  | fault k hi h =>
    subst h
    exact ⟨absurd rfl, absurd rfl, absurd rfl, absurd rfl, absurd rfl, fun _ => hi⟩

/-- A write to a register that changes `V[q]` is a write to `V[q]`. -/
theorem eq_of_getV_setV_ne {s : State} {r q : Reg} {b : Byte} (h : getV (setV s r b) q ≠ getV s q) : r = q := by
  by_contra hne
  exact h (by rw [getV_setV, if_neg (Ne.symm hne)])

/-- A load of `V[0..x]` that changes `V[r]` reaches it (R155). -/
theorem le_of_getV_setFirstRegs_ne {s : State} {bytes : List Byte} {x r : Reg} (hb : bytes.length = x.val + 1)
    (h : getV (setFirstRegs s bytes) r ≠ getV s r) : r.val ≤ x.val := by
  by_contra hlt
  exact h (by rw [getV_setFirstRegs, List.getD_eq_getElem?_getD, List.getElem?_eq_none (by omega), Option.getD_none])

/-- A completed instruction that changes `V[15]` writes a flag or names `V[15]` as its destination (R21). -/
theorem InstrEffect.flagWriter {i : Instr} {s u : State} (h : InstrEffect s i u) (hv : getV u 15 ≠ getV s 15) :
    (∃ x, WritesFlagThen x i) ∨ (∃ x y n, i = .drw x y n) ∨ (∃ x, i = .addi x) ∨
      WritesOnly 15 i ∨ (∃ kk, i = .rnd 15 kk) ∨ i = .ldm 15 := by
  cases h with
  | result x b hi =>
    obtain rfl := eq_of_getV_setV_ne hv
    exact .inr (.inr (.inr (.inl hi)))
  | random x kk b =>
    obtain rfl := eq_of_getV_setV_ne (s := { s with draws := s.draws + 1 }) hv
    simp
  | flagAndResult x f b hi => exact .inl ⟨x, hi⟩
  | loadRegs x bytes hb =>
    have hle : 15 ≤ x.val := le_of_getV_setFirstRegs_ne hb hv
    obtain rfl : x = 15 := Fin.ext (by omega)
    simp
  | draw | addIndex => simp
  | skip | jump | indexedJump | call | ret | loadIndex | loadGlyph | clear | store | setDelay | setSound => exact absurd rfl hv

/-- Settles O21: only a completed instruction changes `V[15]`. -/
theorem flagRegisterWriters : Obligations.FlagRegisterWriters := by
  intro i s t h hv
  cases exec_runs h with
  | done u he h =>
    subst h
    rcases he.flagWriter hv with ⟨x, y, hi⟩ | hi | hi | (⟨kk, hi⟩ | hi | hi) | ⟨kk, hi⟩ | hi
    · exact .inl ⟨x, y, hi⟩
    · exact .inr (.inl hi)
    · exact .inr (.inr (.inl hi))
    · exact .inr (.inr (.inr (.inl ⟨kk, by tauto⟩)))
    · exact .inr (.inr (.inr (.inr (.inl hi))))
    · exact .inr (.inr (.inr (.inr (.inr (by tauto)))))
    · exact .inr (.inr (.inr (.inl ⟨kk, by tauto⟩)))
    · simp [hi]
  | wait x hi h => exact absurd (by rw [h]; rfl) hv
  | fault k hi h => exact absurd (by rw [h]; rfl) hv

/-- An instruction leaves the key latch alone and clears no redraw flag (R28, R29). -/
theorem exec_keys_redraw {i : Instr} {s t : State} (h : exec i s = .next t) :
    t.keys = s.keys ∧ (s.redraw = true → t.redraw = true) := by
  rcases exec_ends h with ⟨u, rfl, _, hk, _, hr⟩ | rfl | ⟨k, rfl⟩
  · exact ⟨hk, hr⟩
  · exact ⟨rfl, id⟩
  · exact ⟨rfl, id⟩

theorem step_keys_redraw {s t : State} (h : step s = .next t) :
    t.keys = s.keys ∧ (s.redraw = true → t.redraw = true) := by
  rcases step_cases h with ⟨k, _, rfl⟩ | ⟨_, _, rfl⟩ | ⟨op, why, _, _, _, hu⟩ | ⟨op, i, _, _, _, hi⟩
  · exact ⟨rfl, id⟩
  · exact ⟨rfl, id⟩
  · rw [execUnknown, completeWith_next] at hu
    subst hu
    exact ⟨rfl, id⟩
  · exact exec_keys_redraw hi

/-- Settles O22: the key latch is left alone as a whole, so each key level is. -/
theorem stepLeavesKeysAndKeepsRedraw : Obligations.StepLeavesKeysAndKeepsRedraw := by
  intro s t h
  obtain ⟨hk, hr⟩ := step_keys_redraw h
  exact ⟨fun k => by simp only [keyDown, hk], hr⟩

end Sys2Proof.Machine
end

section
/-! PROOFS. The invariant of the reachable states (spec 10_state.md R36): reset meets it, and every step and every operation of the
host keeps it. -/

namespace Sys2Proof.Machine

/-! ### The bounds on `pc` and on the live return addresses -/

@[simp] theorem toNat_zextNnn (nnn : BitVec 12) : (zextNnn nnn).toNat = nnn.toNat := by
  have := nnn.isLt
  rw [zextNnn, BitVec.toNat_setWidth]
  omega

@[simp] theorem toNat_zextByte (b : Byte) : (zextByte b).toNat = b.toNat := by
  have := b.isLt
  rw [zextByte, BitVec.toNat_setWidth]
  omega

/-- An address that can be fetched from, moved on by at most 4, stays within the bound of R36 on `pc`. -/
theorem toNat_add_le {w n : Word} (hw : w.toNat ≤ 0xFFE) (hn : n.toNat ≤ 4) : (w + n).toNat ≤ 0x10FE := by
  rw [BitVec.toNat_add]
  omega

/-- Where `pc` and the live return addresses can be fetched from, a completed instruction leaves `pc` at most 0x10FE, the largest
target of `Bnnn` (R123). -/
theorem InstrEffect.pcBound {i : Instr} {s u : State} (h : InstrEffect s i u) (hpc : s.pc.toNat ≤ 0xFFE)
    (hst : ∀ k : Fin 16, k.val < s.sp.val → (s.stack[k]).toNat ≤ 0xFFE) : u.pc.toNat ≤ 0x10FE := by
  cases h with
  | jump nnn | call nnn =>
    have := nnn.isLt
    simp only [toNat_zextNnn]
    omega
  | indexedJump nnn =>
    have := nnn.isLt
    have := (getV s 0).isLt
    simp only [BitVec.toNat_add, toNat_zextNnn, toNat_zextByte]
    omega
  | ret k hk h => exact toNat_add_le (hst ⟨k, hk⟩ (by simp [h])) (by decide)
  | skip c => exact toNat_add_le hpc (by cases c <;> decide)
  | result | random | flagAndResult | loadIndex | loadGlyph | addIndex | clear | draw | store | loadRegs | setDelay | setSound =>
    exact toNat_add_le hpc (by decide)

/-- The only return address a completed instruction makes live is the address of the call itself (R122). -/
theorem InstrEffect.stackBound {i : Instr} {s u : State} (h : InstrEffect s i u) (hpc : s.pc.toNat ≤ 0xFFE)
    (hst : ∀ k : Fin 16, k.val < s.sp.val → (s.stack[k]).toNat ≤ 0xFFE) :
    ∀ k : Fin 16, k.val < u.sp.val → (u.stack[k]).toNat ≤ 0xFFE := by
  cases h with
  | call nnn h =>
    intro k hk
    simp only [Fin.getElem_fin, Vector.getElem_set]
    split
    · exact hpc
    · exact hst k (by simp only at hk; omega)
  | ret j hj h => exact fun k hk => hst k (by simp only at hk; omega)
  | result | random | flagAndResult | skip | jump | indexedJump | loadIndex | loadGlyph | addIndex | clear | draw | store
  | loadRegs | setDelay | setSound => exact hst

/-! ### Steps -/

/-- What the invariant says of memory is kept by every instruction: a store stays within 0x200 to 0xFFF (R67). -/
theorem exec_keeps_memory {i : Instr} {s t : State} (hs : s.Inv) (h : exec i s = .next t) :
    Memory.wf t.mem = true ∧ ∀ a, a < 0x200 → readByte t.mem a = resetByte t.params.font a := by
  rw [exec_params h]
  rcases exec_mem h with hm | ⟨bytes, hm, hlo, hhi, _⟩ <;> rw [hm]
  · exact ⟨hs.memWf, hs.low⟩
  · exact ⟨writeBytes_wf hs.memWf hhi, fun a ha => (readByte_writeBytes_outside s.mem (by omega)).trans (hs.low a ha)⟩

/-- An instruction that was fetched keeps the invariant. -/
theorem exec_keeps_inv {i : Instr} {s t : State} (hs : s.Inv) (hpc : s.pc.toNat ≤ 0xFFE) (h : exec i s = .next t) : t.Inv := by
  obtain ⟨hwf, hlow⟩ := exec_keeps_memory hs h
  cases exec_runs h with
  | done u he h =>
    subst h
    exact ⟨hwf, hlow, he.pcBound hpc hs.stackBound, he.stackBound hpc hs.stackBound⟩
  | wait x hi h => subst h; exact ⟨hwf, hlow, hs.pcBound, hs.stackBound⟩
  | fault k hi h => subst h; exact ⟨hwf, hlow, hs.pcBound, hs.stackBound⟩

/-- An unmatched word that was fetched keeps the invariant: only `pc` moves (R107). -/
theorem execUnknown_keeps_inv {s t : State} (hs : s.Inv) (hpc : s.pc.toNat ≤ 0xFFE) (h : execUnknown s = .next t) : t.Inv := by
  rw [execUnknown, completeWith_next] at h
  subst h
  exact ⟨hs.memWf, hs.low, toNat_add_le hpc (by decide), hs.stackBound⟩

/-- Settles O16: by what the step does; an instruction or an unmatched word has been fetched, so `pc` was at most 0xFFE. -/
theorem stepKeepsInvariant : Obligations.StepKeepsInvariant := by
  intro s t hs h
  have fetched : ∀ {op}, fetch s = some op → s.pc.toNat ≤ 0xFFE := fun hw => by
    have := (fetch_eq_some.1 hw).1
    omega
  rcases step_cases h with ⟨k, _, rfl⟩ | ⟨_, _, rfl⟩ | ⟨op, why, _, hw, _, hu⟩ | ⟨op, i, _, hw, _, hi⟩
  · exact ⟨hs.memWf, hs.low, hs.pcBound, hs.stackBound⟩
  · exact ⟨hs.memWf, hs.low, hs.pcBound, hs.stackBound⟩
  · exact execUnknown_keeps_inv hs (fetched hw) hu
  · exact exec_keeps_inv hs (fetched hw) hi

/-! ### Reset and the operations of the host -/

/-- The reset under any parameters meets the invariant (R35, R36). -/
theorem resetWith_inv (p : Config.Params) : (State.resetWith p).Inv where
  memWf := resetMemory_wf p.font
  low a _ := readByte_resetMemory p.font a
  pcBound := show (0x200 : Word).toNat ≤ 0x10FE by decide
  stackBound k hk := absurd hk (Nat.not_lt_zero _)

/-- The reset state is the reset under the default parameters: the default FONT leaves nothing listed (R6, R35). -/
theorem reset_eq_resetWith : State.reset = State.resetWith defaultParams := by
  have hm : resetMemory defaultParams.font = [] := resetMemory_default
  rw [State.resetWith, hm]
  rfl

/-- Settles O15: the reset state is one of the resets under given parameters. -/
theorem resetMeetsInvariant : Obligations.ResetMeetsInvariant :=
  ⟨reset_eq_resetWith ▸ resetWith_inv defaultParams, resetWith_inv⟩

/-- An image that fits is stored within 0x200 to 0xFFF (R224). -/
theorem loadImage_inv {s : State} {bytes : Image} (hs : s.Inv) (hb : bytes.wellFormed = true) : (loadImage s bytes).Inv := by
  have hlen : bytes.length ≤ 3584 := of_decide_eq_true hb
  refine ⟨writeBytes_wf hs.memWf ?_, fun a ha => ?_, hs.pcBound, hs.stackBound⟩
  · simp only [Config.progBase, Config.memSize]
    omega
  · exact (readByte_writeBytes_outside s.mem (.inl ha)).trans (hs.low a ha)

theorem HostEffect.keeps_inv {s t : State} {c : HostCall} (h : HostEffect s c t) (hs : s.Inv) : t.Inv := by
  cases h with
  | restart =>
    have hr := resetWith_inv s.params
    exact ⟨hr.memWf, hr.low, hr.pcBound, hr.stackBound⟩
  | load bytes _ hb => exact loadImage_inv hs hb
  | step t h => exact stepKeepsInvariant s t hs h
  | clearRedraw | setKey => exact ⟨hs.memWf, hs.low, hs.pcBound, hs.stackBound⟩
  | unchanged => exact hs

/-- Settles O17: by the effect of the operation. -/
theorem hostOperationsKeepInvariant : Obligations.HostOperationsKeepInvariant :=
  fun _ _ _ _ hs h => (hostCallOn_effect h).keeps_inv hs

/-- The memory after reset holds FONT from 0x000 on (R61, R220). -/
theorem resetByte_font (font : Config.Font) (k : Fin 80) : resetByte font k.val = font[k] := by
  simp [resetByte]

/-- Settles O52: the fields by their values, memory by what reset leaves at an address. -/
theorem resetValues : Obligations.ResetValues := by
  refine ⟨reset_eq_resetWith, fun _ => rfl, fun p => ⟨rfl, rfl, rfl, fun r => ?_, rfl, rfl, rfl, fun k => ?_, rfl, rfl,
    fun r c => ?_, rfl, fun k => ?_, rfl, fun k => ?_, fun a ha => ?_⟩⟩
  · exact Vector.getElem_replicate _
  · exact Vector.getElem_replicate _
  · exact pixel_blankFrame r c
  · exact Vector.getElem_replicate _
  · exact (readByte_resetMemory p.font k.val).trans (resetByte_font p.font k)
  · exact (readByte_resetMemory p.font a).trans (resetByte_of_le p.font ha)

end Sys2Proof.Machine
end

section
/-! PROOFS. What a program cannot observe: the sound timer, the redraw flag and the outputs of the last step (spec 10_state.md R26,
R28, R34), and the stack slots that hold no live return address (R24). One simulation of the step serves both: it holds of every
relation on states that determines what an instruction reads and that the writes of the instructions keep. -/

namespace Sys2Proof.Machine

/-! ### Relations that the writes of the instructions keep -/

/-- `s` with other stack slots, which only calls and returns touch, and with other values in the three fields that no instruction
reads. -/
def State.withHidden (s : State) (stack : Vector Word 16) (st : Byte) (redraw : Bool) (lastStep : Option StepOutputs) : State :=
  { s with stack := stack, st := st, redraw := redraw, lastStep := lastStep }

/-- A relation on states that determines what an instruction reads, and that is kept when both states are written in one way. -/
structure Unobserved (R : State → State → Prop) : Prop where
  reads {s s'} (h : R s s') : ∃ stack st redraw lastStep, s' = s.withHidden stack st redraw lastStep
  write {s s'} (h : R s s') (v : Vector Byte 16) (i p : Word) (d : Byte) (f : Frame) (m : Memory) (n : Nat) :
    R { s with v := v, index := i, pc := p, dt := d, fb := f, mem := m, draws := n }
      { s' with v := v, index := i, pc := p, dt := d, fb := f, mem := m, draws := n }
  setSound {s s'} (h : R s s') (b : Byte) : R { s with st := b } { s' with st := b }
  setRedraw {s s'} (h : R s s') : R { s with redraw := true } { s' with redraw := true }
  push {s s'} (h : R s s') (hs : s.sp.val < 16) (w : Word) :
    R { s with stack := s.stack.set s.sp.val w, sp := ⟨s.sp.val + 1, Nat.succ_lt_succ hs⟩ }
      { s' with stack := s'.stack.set s.sp.val w, sp := ⟨s.sp.val + 1, Nat.succ_lt_succ hs⟩ }
  pop {s s'} (h : R s s') (k : Nat) (hk : k < 16) (hs : s.sp.val = k + 1) :
    s'.stack[k] = s.stack[k] ∧ R { s with sp := ⟨k, by omega⟩ } { s' with sp := ⟨k, by omega⟩ }

/-- Two results from `s` and `s'` that end in the same way (R108): completed with effects that `R` relates, or stopped with nothing
changed but the latch and the outputs, the same in both. -/
inductive EndAlike (R : State → State → Prop) (s s' : State) : Result → Result → Prop
  | done {u u' : State} (unknown : Bool) (h : R u u') : EndAlike R s s' (completeWith unknown u) (completeWith unknown u')
  | stopped (latch : Option Fault) (o : StepOutputs) : EndAlike R s s'
      (.next { s with fault := latch, lastStep := some o }) (.next { s' with fault := latch, lastStep := some o })

theorem EndAlike.unlessFault {R : State → State → Prop} {s s' : State} {r r' : Result} (check : Option Fault)
    (h : EndAlike R s s' r r') : EndAlike R s s' (unlessFault check s r) (unlessFault check s' r') := by
  cases check with
  | none => exact h
  | some k => exact .stopped _ _

/-! ### Related states run alike -/

section
variable {R : State → State → Prop} (hR : Unobserved R) {s s' : State} (h : R s s')
include hR h

theorem Unobserved.setPc (p : Word) : R { s with pc := p } { s' with pc := p } := by
  have write := hR.write h
  obtain ⟨_, _, _, _, rfl⟩ := hR.reads h
  exact write _ _ p _ _ _ _

theorem execCall_alike (nnn : BitVec 12) : EndAlike R s s' (execCall nnn s) (execCall nnn s') := by
  have push := hR.push h
  obtain ⟨stack, st, redraw, last, rfl⟩ := hR.reads h
  by_cases hs : s.sp.val < 16
  · rw [execCall_of_lt hs, execCall_of_lt (s := s.withHidden stack st redraw last) hs]
    exact .done _ (hR.setPc (push hs s.pc) _)
  · have hs' : s.sp.val = 16 := by omega
    rw [execCall_of_full hs', execCall_of_full (s := s.withHidden stack st redraw last) hs']
    exact .stopped _ _

theorem execRet_alike : EndAlike R s s' (execRet s) (execRet s') := by
  have pop := hR.pop h
  obtain ⟨stack, st, redraw, last, rfl⟩ := hR.reads h
  rcases hs : s.sp.val with _ | k
  · rw [execRet_of_empty hs, execRet_of_empty (s := s.withHidden stack st redraw last) hs]
    exact .stopped _ _
  · have hk : k < 16 := by omega
    obtain ⟨hw, hu⟩ := pop k hk hs
    rw [execRet_of_succ hk hs, execRet_of_succ (s := s.withHidden stack st redraw last) hk hs, hw]
    exact .done _ (hR.setPc hu _)

theorem skipOnKey_alike (x : Reg) (level : Bool) : EndAlike R s s' (skipOnKey s x level) (skipOnKey s' x level) := by
  have setPc := hR.setPc h
  obtain ⟨stack, st, redraw, last, rfl⟩ := hR.reads h
  rcases hk : keyOf (getV s x) with _ | k
  · rw [skipOnKey_of_none hk, skipOnKey_of_none (s := s.withHidden stack st redraw last) hk]
    exact .stopped _ _
  · rw [skipOnKey_of_some hk, skipOnKey_of_some (s := s.withHidden stack st redraw last) hk]
    exact .done _ (setPc _)

theorem execWaitk_alike (x : Reg) : EndAlike R s s' (execWaitk x s) (execWaitk x s') := by
  have write := hR.write h
  obtain ⟨stack, st, redraw, last, rfl⟩ := hR.reads h
  rcases hk : keyPick s.params.keyPick (pressedKeys s) with _ | k
  · rw [execWaitk_of_none hk, execWaitk_of_none (s := s.withHidden stack st redraw last) hk]
    exact .stopped _ _
  · rw [execWaitk_of_some hk, execWaitk_of_some (s := s.withHidden stack st redraw last) hk]
    exact .done _ (write _ _ _ _ _ _ _)

/-- Related states execute an instruction alike. -/
theorem exec_alike (i : Instr) : EndAlike R s s' (exec i s) (exec i s') := by
  have write := hR.write h
  have draw := hR.write (hR.setRedraw h)
  have sound := fun b => hR.write (hR.setSound h b)
  cases i with
  | call nnn => exact execCall_alike hR h nnn
  | ret => exact execRet_alike hR h
  | skp x => exact skipOnKey_alike hR h x true
  | sknp x => exact skipOnKey_alike hR h x false
  | waitk x => exact execWaitk_alike hR h x
  | cls =>
    obtain ⟨_, _, _, _, rfl⟩ := hR.reads h
    exact .done false (draw _ _ _ _ _ _ _)
  | drw x y n =>
    obtain ⟨_, _, _, _, rfl⟩ := hR.reads h
    exact .unlessFault _ (.done false (draw _ _ _ _ _ _ _))
  | setst x =>
    obtain ⟨_, _, _, _, rfl⟩ := hR.reads h
    exact .done false (sound _ _ _ _ _ _ _ _)
  | bcd x | stm x | ldm x =>
    obtain ⟨_, _, _, _, rfl⟩ := hR.reads h
    exact .unlessFault _ (.done false (write _ _ _ _ _ _ _))
  | jp | sek | snek | se | ldk | addk | mov | or | and | xor | add | sub | shr | subn | shl | sne | ldi | jpv0 | rnd
  | getdt | setdt | addi | ldf =>
    obtain ⟨_, _, _, _, rfl⟩ := hR.reads h
    exact .done false (write _ _ _ _ _ _ _)

theorem runWord_alike (op : Word) : EndAlike R s s' (runWord op s) (runWord op s') := by
  unfold runWord
  split
  · exact exec_alike hR h _
  · have setPc := hR.setPc h
    obtain ⟨_, _, _, _, rfl⟩ := hR.reads h
    exact .done true (setPc _)

/-- Related states step alike: they are halted alike and fetch the same word. -/
theorem step_alike : EndAlike R s s' (step s) (step s') := by
  have run := runWord_alike hR h
  obtain ⟨stack, st, redraw, last, rfl⟩ := hR.reads h
  rcases hf : s.fault with _ | k
  · rcases hw : fetch s with _ | op
    · rw [step_of_fetch_none hf hw, step_of_fetch_none (s := s.withHidden stack st redraw last) hf hw]
      exact .stopped _ _
    · rw [step_of_fetch_some hf hw, step_of_fetch_some (s := s.withHidden stack st redraw last) hf hw]
      exact run op
  · rw [step_of_fault hf, step_of_fault (s := s.withHidden stack st redraw last) hf]
    exact .stopped _ _

end

/-! ### The sound timer and the redraw flag (R26, R28, R34) -/

theorem sameButSoundAndRedraw_iff {s s' : State} :
    SameButSoundAndRedraw s s' ↔ ∃ st redraw lastStep, s' = { s with st := st, redraw := redraw, lastStep := lastStep } :=
  ⟨fun h => ⟨_, _, _, h⟩, by rintro ⟨_, _, _, rfl⟩; rfl⟩

theorem sameButSoundAndRedraw_unobserved : Unobserved SameButSoundAndRedraw where
  reads h := ⟨_, _, _, _, h⟩
  write h v i p d f m n := by
    obtain ⟨_, _, _, rfl⟩ := sameButSoundAndRedraw_iff.1 h
    rfl
  setSound h b := by
    obtain ⟨_, _, _, rfl⟩ := sameButSoundAndRedraw_iff.1 h
    rfl
  setRedraw h := by
    obtain ⟨_, _, _, rfl⟩ := sameButSoundAndRedraw_iff.1 h
    rfl
  push h hs w := by
    obtain ⟨_, _, _, rfl⟩ := sameButSoundAndRedraw_iff.1 h
    rfl
  pop h k hk hs := by
    obtain ⟨_, _, _, rfl⟩ := sameButSoundAndRedraw_iff.1 h
    exact ⟨rfl, rfl⟩

/-- Settles O23: the simulation, with the outputs that each way to end reports. -/
theorem soundTimerAndRedrawInvisible : Obligations.SoundTimerAndRedrawInvisible := by
  intro s s' t t' h ht ht'
  have e := step_alike sameButSoundAndRedraw_unobserved h
  rw [ht, ht'] at e
  generalize hr : Host.Outcome.next t = r, hr' : Host.Outcome.next t' = r' at e
  cases e with
  | done unknown hu =>
    obtain ⟨_, _, _, rfl⟩ := sameButSoundAndRedraw_iff.1 hu
    cases hr
    cases hr'
    exact ⟨rfl, rfl⟩
  | stopped latch o =>
    obtain ⟨_, _, _, rfl⟩ := sameButSoundAndRedraw_iff.1 h
    cases hr
    cases hr'
    exact ⟨rfl, rfl⟩

/-! ### Dead stack slots (R24) -/

theorem sameButDeadSlots_iff {s s' : State} : SameButDeadSlots s s' ↔
    ∃ stack, s' = { s with stack := stack } ∧ ∀ k : Fin 16, k.val < s.sp.val → stack[k] = s.stack[k] :=
  ⟨fun h => ⟨_, h⟩, by rintro ⟨_, rfl, h⟩; exact ⟨rfl, h⟩⟩

theorem sameButDeadSlots_unobserved : Unobserved SameButDeadSlots where
  reads h := ⟨_, _, _, _, h.1⟩
  write h v i p d f m n := by
    obtain ⟨_, rfl, hs⟩ := sameButDeadSlots_iff.1 h
    exact ⟨rfl, hs⟩
  setSound h b := by
    obtain ⟨_, rfl, hs⟩ := sameButDeadSlots_iff.1 h
    exact ⟨rfl, hs⟩
  setRedraw h := by
    obtain ⟨_, rfl, hs⟩ := sameButDeadSlots_iff.1 h
    exact ⟨rfl, hs⟩
  push h hlt w := by
    obtain ⟨stack, rfl, hs⟩ := sameButDeadSlots_iff.1 h
    refine ⟨rfl, fun k hk => ?_⟩
    simp only [Fin.getElem_fin, Vector.getElem_set]
    split
    · rfl
    · exact hs k (by simp only at hk; omega)
  pop h k hk hsp := by
    obtain ⟨stack, rfl, hs⟩ := sameButDeadSlots_iff.1 h
    exact ⟨hs ⟨k, hk⟩ (by simp [hsp]), rfl, fun j hj => hs j (by simp only at hj; omega)⟩

/-- Settles O24: the simulation; no way to end touches the stack. -/
theorem deadStackSlotsInvisible : Obligations.DeadStackSlotsInvisible := by
  intro s s' t t' h ht ht'
  have e := step_alike sameButDeadSlots_unobserved h
  rw [ht, ht'] at e
  generalize hr : Host.Outcome.next t = r, hr' : Host.Outcome.next t' = r' at e
  cases e with
  | done unknown hu =>
    obtain ⟨_, rfl, hs⟩ := sameButDeadSlots_iff.1 hu
    cases hr
    cases hr'
    exact ⟨rfl, hs⟩
  | stopped latch o =>
    obtain ⟨_, rfl, hs⟩ := sameButDeadSlots_iff.1 h
    cases hr
    cases hr'
    exact ⟨rfl, hs⟩

end Sys2Proof.Machine
end

section
/-! PROOFS. Memory (spec 20_memory.md R60 to R72): who changes it and where, the faults of the instructions that access it, and that
a fetch sees what was stored. -/

namespace Sys2Proof.Machine

/-! ### What leaves a byte alone (R61, R65, R67) -/

/-- An instruction that changes a byte stores it: it is `Fx33` or `Fx55`, and the byte lies in the run that it stores, from 0x200 on. -/
theorem exec_changed_byte {i : Instr} {s t : State} {a : Nat} (h : exec i s = .next t)
    (ha : readByte t.mem a ≠ readByte s.mem a) :
    0x200 ≤ s.index.toNat ∧ s.index.toNat ≤ a ∧
      ((∃ x, i = .bcd x ∧ a ≤ s.index.toNat + 2) ∨ (∃ x, i = .stm x ∧ a ≤ s.index.toNat + x.val)) := by
  rcases exec_mem h with hm | ⟨bytes, hm, hlo, _, hi⟩
  · exact absurd (by rw [hm]) ha
  · have inside : s.index.toNat ≤ a ∧ a < s.index.toNat + bytes.length := by
      by_contra hout
      exact ha (by rw [hm, readByte_writeBytes_outside s.mem (by omega)])
    obtain ⟨hfirst, hlast⟩ := inside
    refine ⟨hlo, hfirst, ?_⟩
    rcases hi with ⟨x, rfl, hlen⟩ | ⟨x, rfl, hlen⟩
    · exact .inl ⟨x, rfl, by omega⟩
    · exact .inr ⟨x, rfl, by omega⟩

theorem exec_readByte_below {i : Instr} {s t : State} {a : Nat} (h : exec i s = .next t) (ha : a < 0x200) :
    readByte t.mem a = readByte s.mem a := by
  by_contra hne
  obtain ⟨hlo, hfirst, _⟩ := exec_changed_byte h hne
  omega

/-- Settles O18: of the ways a step goes, only an instruction can touch memory, and no instruction does below 0x200. -/
theorem engineNeverWritesBelowProgram : Obligations.EngineNeverWritesBelowProgram := by
  intro s t h a ha
  rcases step_cases h with ⟨k, _, rfl⟩ | ⟨_, _, rfl⟩ | ⟨op, why, _, _, _, hu⟩ | ⟨op, i, _, _, _, hi⟩
  · rfl
  · rfl
  · rw [execUnknown, completeWith_next] at hu
    subst hu
    rfl
  · exact exec_readByte_below hi ha

/-- Settles O19: the byte changed lies in the run stored. -/
theorem onlyStoresChangeMemory : Obligations.OnlyStoresChangeMemory := by
  intro i s t a h ha
  obtain ⟨_, hfirst, hi⟩ := exec_changed_byte h ha
  rcases hi with ⟨x, hx, hlast⟩ | ⟨x, hx, hlast⟩
  · exact .inl ⟨x, hx, hfirst, hlast⟩
  · exact .inr ⟨x, hx, hfirst, hlast⟩

/-! ### The faults of memory accesses (R65 to R67, R184) -/

theorem unlessFault_of_some {check : Option Fault} {k : Fault} (h : check = some k) (s : State) (r : Result) :
    unlessFault check s r = raise k s := by
  rw [h, unlessFault]

theorem unlessFault_of_none {check : Option Fault} (h : check = none) (s : State) (r : Result) :
    unlessFault check s r = r := by
  rw [h, unlessFault]

/-- The store check of a run that passes the end of memory (R66). -/
theorem writeCheck_of_above {a n : Nat} (hn : 0 < n) (h : 4096 < a + n) : writeCheck a n = some .addressOutOfRange := by
  rw [writeCheck, if_pos ⟨hn, by omega⟩]

/-- The store check of a run that begins below 0x200 and stays within memory (R67). -/
theorem writeCheck_of_below {a n : Nat} (hn : 0 < n) (ha : a < 0x200) (h : a + n ≤ 4096) :
    writeCheck a n = some .protectedWrite := by
  rw [writeCheck, if_neg (by omega), if_pos ⟨hn, ha⟩]

theorem storeAtIndex_of_above {s : State} {bytes : List Byte} (hb : 0 < bytes.length)
    (h : 4096 < s.index.toNat + bytes.length) : storeAtIndex s bytes = raise .addressOutOfRange s :=
  unlessFault_of_some (writeCheck_of_above hb h) s _

theorem storeAtIndex_of_below {s : State} {bytes : List Byte} (hb : 0 < bytes.length) (hs : s.index.toNat < 0x200)
    (h : s.index.toNat + bytes.length ≤ 4096) : storeAtIndex s bytes = raise .protectedWrite s :=
  unlessFault_of_some (writeCheck_of_below hb hs h) s _

theorem storeAtIndex_of_inRange {s : State} {bytes : List Byte} (hb : 0 < bytes.length)
    (hlo : 0x200 ≤ s.index.toNat) (hhi : s.index.toNat + bytes.length ≤ 4096) :
    storeAtIndex s bytes = complete (advance { s with mem := writeBytes s.mem s.index.toNat bytes } 2) :=
  unlessFault_of_none ((writeCheck_eq_none hb).2 ⟨hlo, hhi⟩) s _

/-- `Fx65` past the end of memory (R66). -/
theorem execLdm_of_above {s : State} {x : Reg} (h : 0xFFF < s.index.toNat + x.val) :
    execLdm x s = raise .addressOutOfRange s :=
  have past : 4096 < s.index.toNat + (x.val + 1) := by omega
  unlessFault_of_some (readCheck_eq_some.2 ⟨rfl, Nat.succ_pos _, past⟩) s _

/-- `Dxyn` with a sprite row past the end of memory (R66). -/
theorem execDrw_of_above {s : State} {n : BitVec 4} (hn : 1 ≤ n.toNat) (h : 0xFFF < s.index.toNat + n.toNat - 1) (x y : Reg) :
    execDrw x y n s = raise .addressOutOfRange s :=
  have past : 4096 < s.index.toNat + n.toNat := by omega
  unlessFault_of_some (readCheck_eq_some.2 ⟨rfl, hn, past⟩) s _

/-- Settles O43: each access by its check; a store of at most 16 bytes that begins below 0x200 stays within memory. -/
theorem memoryInstructionFaults : Obligations.MemoryInstructionFaults := by
  intro s x y n
  have hregs := length_firstRegs s x
  have hdigits := length_decimalDigits (getV s x)
  have hx := x.isLt
  refine ⟨fun h => ?_, fun h => ?_, fun h => ?_, fun h => ?_, execLdm_of_above, fun hn h => execDrw_of_above hn h x y⟩
  · exact storeAtIndex_of_above (by omega) (by omega)
  · exact storeAtIndex_of_below (by omega) h (by omega)
  · exact storeAtIndex_of_above (by omega) (by omega)
  · exact storeAtIndex_of_below (by omega) h (by omega)

/-! ### A store and the fetch after it (R63, R72, R154) -/

/-- `Fx55` within its range leaves `V[k]` at `I + k` (R154). -/
theorem exec_stm_readByte {s t : State} {x k : Reg} (hwf : Memory.wf s.mem = true) (hlo : 0x200 ≤ s.index.toNat)
    (hhi : s.index.toNat + x.val ≤ 0xFFF) (h : exec (.stm x) s = .next t) (hk : k ≤ x) :
    readByte t.mem (s.index.toNat + k.val) = getV s k := by
  have hlen := length_firstRegs s x
  have hend : s.index.toNat + (firstRegs s x).length ≤ 4096 := by omega
  have hk' : k.val ≤ x.val := hk
  rw [exec, execStm, storeAtIndex_of_inRange (by omega) hlo hend, complete_next] at h
  subst h
  calc readByte (writeBytes s.mem s.index.toNat (firstRegs s x)) (s.index.toNat + k.val)
      = (firstRegs s x).getD (s.index.toNat + k.val - s.index.toNat) 0 := by
        rw [readByte_writeBytes hwf hend, if_pos (by omega)]
    _ = getV s k := by rw [Nat.add_sub_cancel_left, getD_firstRegs s x hk']

/-- Settles O44: the two bytes that the fetch reads are two that `Fx55` stored. -/
theorem storeSeenByNextFetch : Obligations.StoreSeenByNextFetch := by
  intro s t x k j a hwf hlo hhi h hj hjx ha
  have hjx' : j.val ≤ x.val := hjx
  have hkx : k ≤ x := Fin.le_def.2 (by omega)
  have high : readByte t.mem a.toNat = getV s k := by
    rw [ha]
    exact exec_stm_readByte hwf hlo hhi h hkx
  have low : readByte t.mem (a.toNat + 1) = getV s j := by
    rw [show a.toNat + 1 = s.index.toNat + j.val by omega]
    exact exec_stm_readByte hwf hlo hhi h hjx
  exact fetch_eq_some.2 ⟨show a.toNat + 1 ≤ 0xFFF by omega, show _ = wordOfBytes _ _ by rw [high, low]⟩

end Sys2Proof.Machine
end

section
/-! PROOFS. Decoding and encoding (spec 30_encoding.md R81 to R90): the encoder and the decoder are inverse, the decoder follows the
masks of the opcode map, and the unmatched words are those of the table of R86. -/

namespace Sys2Proof

/-! ### Decoding what was encoded (R81, R82, R84) -/

/-- The family fixes the constructor of the formats without a selector; in the others the selector the encoder put there does. -/
theorem decodeWord_encode (i : Instr) : decodeWord (encode i) = .instr i := by
  cases i with
  | cls | ret => rfl
  | jp | call | ldi | jpv0 =>
    simp [encode, decodeWord_fam1, decodeWord_fam2, decodeWord_famA, decodeWord_famB]
  | sek | snek | ldk | addk | rnd =>
    simp [encode, decodeWord_fam3, decodeWord_fam4, decodeWord_fam6, decodeWord_fam7, decodeWord_famC]
  | se | sne | drw => simp [encode, decodeWord_fam5, decodeWord_fam9, decodeWord_famD]
  | mov | or | and | xor | add | sub | shr | subn | shl => simp [encode, decodeWord_fam8, decodeFamily8]
  | skp | sknp => simp [encode, decodeWord_famE, decodeFamilyE]
  | getdt | waitk | setdt | setst | addi | ldf | bcd | stm | ldm => simp [encode, decodeWord_famF, decodeFamilyF]

/-- Settles O1: constructor by constructor, from the fields of a packed word. -/
theorem decodeEncodeRoundTrip : Obligations.DecodeEncodeRoundTrip :=
  decodeWord_encode

/-! ### A word of a known family, packed again from its fields -/

theorem packXYN_of_fields {op : Word} {f n : BitVec 4} (hf : famOf op = f) (hn : nOf op = n) :
    packXYN f (xOf op) (yOf op) n = op := by
  rw [← hf, ← hn, packXYN_fields]

theorem packXKK_of_fam {op : Word} {f : BitVec 4} (hf : famOf op = f) : packXKK f (xOf op) (kkOf op) = op := by
  rw [← hf, packXKK_fields]

theorem packNNN_of_fam {op : Word} {f : BitVec 4} (hf : famOf op = f) : packNNN f (nnnOf op) = op := by
  rw [← hf, packNNN_fields]

/-! ### The unmatched words (R86) -/

/-- The low nibbles that select nothing in family 8. -/
def unmatched8 : List (BitVec 4) := [0x8, 0x9, 0xA, 0xB, 0xC, 0xD, 0xF]

/-- The low bytes that select an instruction of family E. -/
def selectorsE : List Byte := [0x9E, 0xA1]

/-- The low bytes that select an instruction of family F. -/
def selectorsF : List Byte := [0x07, 0x0A, 0x15, 0x18, 0x1E, 0x29, 0x33, 0x55, 0x65]

/-- The words of the table of R86. -/
def IsUnmatched (op : Word) : Prop :=
  (famOf op = 0x0 ∧ nnnOf op ≠ 0x0E0 ∧ nnnOf op ≠ 0x0EE) ∨
  (famOf op = 0x5 ∧ nOf op ≠ 0) ∨
  (famOf op = 0x8 ∧ nOf op ∈ unmatched8) ∨
  (famOf op = 0x9 ∧ nOf op ≠ 0) ∨
  (famOf op = 0xE ∧ kkOf op ∉ selectorsE) ∨
  (famOf op = 0xF ∧ kkOf op ∉ selectorsF)

theorem isUnmatched_fam0 {op : Word} (h : famOf op = 0x0) : IsUnmatched op ↔ op ≠ 0x00E0 ∧ op ≠ 0x00EE := by
  have eq_iff (nnn : BitVec 12) : op = packNNN 0x0 nnn ↔ nnnOf op = nnn :=
    ⟨fun e => e ▸ nnnOf_packNNN _ _, fun e => e ▸ (packNNN_of_fam h).symm⟩
  have cls : op = 0x00E0 ↔ nnnOf op = 0x0E0 := eq_iff 0x0E0
  have ret : op = 0x00EE ↔ nnnOf op = 0x0EE := eq_iff 0x0EE
  rw [ne_eq, ne_eq, cls, ret]
  simp [IsUnmatched, h]

/-! ### What a word decodes to, said once (R84, R86) -/

/-- What the decoder may answer for `op`: an instruction whose word is `op` where some row matches, else `UNKNOWN`. -/
def Decoded.Sound (op : Word) (unmatched : Prop) : Decoded → Prop
  | .instr i => encode i = op ∧ ¬unmatched
  | .unknown _ => unmatched

theorem sound_of_zero_nibble {op : Word} {n : BitVec 4} {i : Instr} {why : Unmatched} (he : n = 0 → encode i = op) :
    (if n = 0 then Decoded.instr i else .unknown why).Sound op (n ≠ 0) := by
  split <;> rename_i hn
  · exact ⟨he hn, not_not_intro hn⟩
  · exact hn

theorem decodeFamily8_sound {op : Word} {x y : Reg} {n : BitVec 4} (h : packXYN 0x8 x y n = op) :
    (decodeFamily8 x y n).Sound op (n ∈ unmatched8) := by
  subst h
  obtain h | h | h | h | h | h | h | h | h | h | h | h | h | h | h | h := fam_cases n <;> subst h <;>
    simp [decodeFamily8, Decoded.Sound, encode, unmatched8]

theorem decodeFamilyE_sound {op : Word} {x : Reg} {kk : Byte} (h : packXKK 0xE x kk = op) :
    (decodeFamilyE x kk).Sound op (kk ∉ selectorsE) := by
  unfold decodeFamilyE
  split <;> simp_all [Decoded.Sound, encode, selectorsE]

theorem decodeFamilyF_sound {op : Word} {x : Reg} {kk : Byte} (h : packXKK 0xF x kk = op) :
    (decodeFamilyF x kk).Sound op (kk ∉ selectorsF) := by
  unfold decodeFamilyF
  split <;> simp_all [Decoded.Sound, encode, selectorsF]

/-- The words of a family for which the table of R86 asks `p`. -/
theorem decodeWord_sound_of {op : Word} {d : Decoded} {p : Prop} (hd : decodeWord op = d) (ht : IsUnmatched op ↔ p)
    (h : d.Sound op p) : (decodeWord op).Sound op (IsUnmatched op) := by
  rwa [hd, ht]

/-- The words of a family that the table of R86 does not name. -/
theorem decodeWord_sound_of_instr {op : Word} {i : Instr} (hd : decodeWord op = .instr i) (ht : ¬IsUnmatched op)
    (he : encode i = op) : (decodeWord op).Sound op (IsUnmatched op) := by
  rw [hd]
  exact ⟨he, ht⟩

theorem decodeWord_sound_fam0 {op : Word} (h : famOf op = 0x0) : (decodeWord op).Sound op (IsUnmatched op) := by
  refine decodeWord_sound_of (decodeWord_fam0 h) (isUnmatched_fam0 h) ?_
  split <;> rename_i hcls
  · exact ⟨hcls.symm, fun hne => hne.1 hcls⟩
  · split <;> rename_i hret
    · exact ⟨hret.symm, fun hne => hne.2 hret⟩
    · exact ⟨hcls, hret⟩

theorem decodeWord_sound (op : Word) : (decodeWord op).Sound op (IsUnmatched op) := by
  obtain h | h | h | h | h | h | h | h | h | h | h | h | h | h | h | h := fam_cases (famOf op)
  · exact decodeWord_sound_fam0 h
  · exact decodeWord_sound_of_instr (decodeWord_fam1 h) (by simp [IsUnmatched, h]) (packNNN_of_fam h)
  · exact decodeWord_sound_of_instr (decodeWord_fam2 h) (by simp [IsUnmatched, h]) (packNNN_of_fam h)
  · exact decodeWord_sound_of_instr (decodeWord_fam3 h) (by simp [IsUnmatched, h]) (packXKK_of_fam h)
  · exact decodeWord_sound_of_instr (decodeWord_fam4 h) (by simp [IsUnmatched, h]) (packXKK_of_fam h)
  · exact decodeWord_sound_of (decodeWord_fam5 h) (by simp [IsUnmatched, h]) (sound_of_zero_nibble (packXYN_of_fields h))
  · exact decodeWord_sound_of_instr (decodeWord_fam6 h) (by simp [IsUnmatched, h]) (packXKK_of_fam h)
  · exact decodeWord_sound_of_instr (decodeWord_fam7 h) (by simp [IsUnmatched, h]) (packXKK_of_fam h)
  · exact decodeWord_sound_of (decodeWord_fam8 h) (by simp [IsUnmatched, h]) (decodeFamily8_sound (packXYN_of_fields h rfl))
  · exact decodeWord_sound_of (decodeWord_fam9 h) (by simp [IsUnmatched, h]) (sound_of_zero_nibble (packXYN_of_fields h))
  · exact decodeWord_sound_of_instr (decodeWord_famA h) (by simp [IsUnmatched, h]) (packNNN_of_fam h)
  · exact decodeWord_sound_of_instr (decodeWord_famB h) (by simp [IsUnmatched, h]) (packNNN_of_fam h)
  · exact decodeWord_sound_of_instr (decodeWord_famC h) (by simp [IsUnmatched, h]) (packXKK_of_fam h)
  · exact decodeWord_sound_of_instr (decodeWord_famD h) (by simp [IsUnmatched, h]) (packXYN_of_fields h rfl)
  · exact decodeWord_sound_of (decodeWord_famE h) (by simp [IsUnmatched, h]) (decodeFamilyE_sound (packXKK_of_fam h))
  · exact decodeWord_sound_of (decodeWord_famF h) (by simp [IsUnmatched, h]) (decodeFamilyF_sound (packXKK_of_fam h))

theorem encode_of_decodeWord {op : Word} {i : Instr} (h : decodeWord op = .instr i) : encode i = op := by
  have sound := decodeWord_sound op
  rw [h] at sound
  exact sound.1

/-- Settles O2: an instruction decoded is the one whose word it was. -/
theorem encodeDecodeRoundTrip : Obligations.EncodeDecodeRoundTrip :=
  fun _ _ => encode_of_decodeWord

theorem decodeWord_unknown_iff (op : Word) : (∃ why, decodeWord op = .unknown why) ↔ IsUnmatched op := by
  have sound := decodeWord_sound op
  cases hd : decodeWord op with
  | instr i =>
    rw [hd] at sound
    exact ⟨fun ⟨_, hu⟩ => (nomatch hu), fun ht => absurd ht sound.2⟩
  | unknown why =>
    rw [hd] at sound
    exact ⟨fun _ => sound, fun _ => ⟨why, rfl⟩⟩

/-- Settles O5: `IsUnmatched` is the table of R86. -/
theorem unmatchedWordsAreUnknown : Obligations.UnmatchedWordsAreUnknown :=
  decodeWord_unknown_iff

/-! ### The opcode map (R84, R85) -/

/-- The per-constructor family `EncodesRow`, for every instruction. -/
theorem row_matches_encode (i : Instr) : i.row.Matches (encode i) :=
  open Laws.EncodesRow in
  Instr.casesOn (motive := Statement) i cls ret jp call sek snek se ldk addk mov or and xor add sub shr subn shl sne ldi
    jpv0 rnd drw skp sknp getdt waitk setdt setst addi ldf bcd stm ldm

theorem row_mem_opcodeMap (i : Instr) : i.row ∈ opcodeMap := by
  cases i <;> simp [opcodeMap, Instr.row]

/-- A field that the mask covers is literal: a word of the row has it as the row's `bits` do. -/
theorem extractLsb'_of_matches {r : OpcodeRow} {op : Word} {start len : Nat} (h : r.Matches op)
    (hm : r.mask.extractLsb' start len = BitVec.allOnes len) :
    op.extractLsb' start len = r.bits.extractLsb' start len := by
  rw [← h, BitVec.extractLsb'_and, hm, BitVec.and_allOnes]

theorem famOf_of_matches {r : OpcodeRow} {op : Word} (h : r.Matches op) (hm : famOf r.mask = 0xF) :
    famOf op = famOf r.bits :=
  extractLsb'_of_matches h hm

theorem nOf_of_matches {r : OpcodeRow} {op : Word} (h : r.Matches op) (hm : nOf r.mask = 0xF) : nOf op = nOf r.bits :=
  extractLsb'_of_matches h hm

theorem kkOf_of_matches {r : OpcodeRow} {op : Word} (h : r.Matches op) (hm : kkOf r.mask = 0xFF) :
    kkOf op = kkOf r.bits :=
  extractLsb'_of_matches h hm

/-- The literal digits of a row are the family and the selector, and these choose the constructor. -/
theorem decodeWord_of_row_matches {j : Instr} {op : Word} (h : j.row.Matches op) :
    ∃ i, decodeWord op = .instr i ∧ i.row = j.row := by
  cases j with
  | cls | ret =>
    rw [show op = _ from (BitVec.and_allOnes).symm.trans h]
    exact ⟨_, rfl, rfl⟩
  | jp | call | sek | snek | ldk | addk | ldi | jpv0 | rnd | drw =>
    simp only [Instr.row] at h
    rw [decodeWord, famOf_of_matches h rfl]
    exact ⟨_, rfl, rfl⟩
  | se | mov | or | and | xor | add | sub | shr | subn | shl | sne =>
    simp only [Instr.row] at h
    rw [decodeWord, famOf_of_matches h rfl, nOf_of_matches h rfl]
    exact ⟨_, rfl, rfl⟩
  | skp | sknp | getdt | waitk | setdt | setst | addi | ldf | bcd | stm | ldm =>
    simp only [Instr.row] at h
    rw [decodeWord, famOf_of_matches h rfl, kkOf_of_matches h rfl]
    exact ⟨_, rfl, rfl⟩

theorem decodeWord_of_matches {r : OpcodeRow} {op : Word} (hr : r ∈ opcodeMap) (h : r.Matches op) :
    ∃ i, decodeWord op = .instr i ∧ i.row = r := by
  obtain ⟨j, _, rfl⟩ := List.mem_map.1 hr
  exact decodeWord_of_row_matches h

/-- Settles O3: a word decoded is the encoding of its instruction, which lies in the row; and the literal digits of a row decide the
decoder's way. -/
theorem decodeFollowsOpcodeMap : Obligations.DecodeFollowsOpcodeMap := by
  refine ⟨fun op i h => ⟨row_mem_opcodeMap i, ?_⟩, fun op r hr h => decodeWord_of_matches hr h⟩
  rw [← encode_of_decodeWord h]
  exact row_matches_encode i

theorem opcodeMap_nodup : opcodeMap.Nodup := by
  decide

/-- Settles O4: a word in two rows would decode to an instruction of both, and an instruction has one row. -/
theorem opcodeRowsDisjoint : Obligations.OpcodeRowsDisjoint := by
  refine opcodeMap_nodup.imp_of_mem fun hr hq hne op ⟨hrop, hqop⟩ => hne ?_
  obtain ⟨i, hi, rfl⟩ := decodeWord_of_matches hr hrop
  obtain ⟨j, hj, rfl⟩ := decodeWord_of_matches hq hqop
  cases hi.symm.trans hj
  rfl

/-! ### The decode vectors -/

/-- Settles O6: nine closed words, evaluated. -/
theorem sampleWordsDecode : Obligations.SampleWordsDecode := by
  unfold Obligations.SampleWordsDecode
  decide

end Sys2Proof
end

section
/-! PROOFS. The instruction cycle (spec 40_instruction_cycle.md R100 to R108): what a step runs, that it always answers, and the ways it
ends, said once, with what each leaves unchanged. -/

namespace Sys2Proof.Machine

/-! ### What a step decodes (R102, R103) -/

/-- The instruction decoded is that of the word fetched, even or odd (R64). -/
theorem decodes_iff_of_fetch {s : State} {op : Word} (hw : fetch s = some op) (i : Instr) :
    Decodes s i ↔ decodeWord op = .instr i := by
  obtain ⟨hpc, rfl⟩ := fetch_eq_some.1 hw
  exact and_iff_right hpc

theorem fetch_of_pc_le {s : State} (hpc : s.pc.toNat + 1 ≤ 0xFFF) :
    fetch s = some (wordOfBytes (readByte s.mem s.pc.toNat) (readByte s.mem (s.pc.toNat + 1))) :=
  fetch_eq_some.2 ⟨hpc, rfl⟩

theorem decodes_unique {s : State} {i j : Instr} (hi : Decodes s i) (hj : Decodes s j) : i = j :=
  Decoded.instr.inj (hi.2.symm.trans hj.2)

theorem step_of_unknown {s : State} {op : Word} {why : Unmatched} (hf : s.fault = none) (hw : fetch s = some op)
    (hd : decodeWord op = .unknown why) : step s = execUnknown s := by
  rw [step_of_fetch_some hf hw, runWord, hd]

/-- Settles O7: the two bytes at `pc` are the word fetched. -/
theorem stepRunsDecodedInstruction : Obligations.StepRunsDecodedInstruction :=
  fun _ _ hf hd => step_of_instr hf (fetch_of_pc_le hd.1) hd.2

/-- Settles O8: `execUnknown` moves `pc` and ticks, and every other field is that of `s`. -/
theorem unknownWordStep : Obligations.UnknownWordStep := by
  intro s why hf hpc hd
  have outside : SameOutsideRegs s { tick (advance s 2) with lastStep := some ⟨.done, beepOf (advance s 2), true⟩ } :=
    ⟨rfl, ⟨rfl, fun _ => rfl⟩, ⟨fun _ _ => rfl, rfl⟩, fun _ => rfl, fun _ => rfl, rfl⟩
  refine ⟨_, step_of_unknown hf (fetch_of_pc_le hpc) hd, pcPlus_of_eq (n := 2) rfl, fun _ => rfl, outside, rfl,
    toNat_countDown s.dt, toNat_countDown s.st, ?_⟩
  rw [beepOf_eq, advance_st]

/-- Settles O9: the fetch fails, and the fault is taken. -/
theorem fetchPastMemoryFaults : Obligations.FetchPastMemoryFaults :=
  fun _ hf hpc => step_of_fetch_none hf (fetch_eq_none.2 hpc)

/-- Settles O10: the halted check comes first. -/
theorem haltedStepChangesNothing : Obligations.HaltedStepChangesNothing :=
  fun _ _ hf => step_of_fault hf

/-! ### The ways a step ends (R108) -/

/-- The effect `u` of a completed step, before the tick: that of the instruction decoded, or the move of `pc` by `UNKNOWN` (R107). -/
inductive CycleEffect (s : State) : State → Prop
  | instr {u : State} (i : Instr) (hd : Decodes s i) (he : InstrEffect s i u) : CycleEffect s u
  | unknown (hd : ∀ i, ¬Decodes s i) : CycleEffect s (advance s 2)

/-- What a step that answers `t` has done: completed and ticked, or waited, or stopped with a fault, an old one that the latch holds or
a new one that it takes. -/
inductive StepEnds (s t : State) : Prop
  | done (u : State) (unknown : Bool) (he : CycleEffect s u)
      (h : t = { tick u with lastStep := some ⟨.done, beepOf u, unknown⟩ })
  | wait (h : t = { s with lastStep := some ⟨.awaitingInput, false, false⟩ })
  | fault (k : Fault) (h : t = { s with fault := some k, lastStep := some ⟨.fault k, false, false⟩ })

theorem InstrRuns.stepEnds {i : Instr} {s t : State} (hd : Decodes s i) (h : InstrRuns i s t) : StepEnds s t := by
  cases h with
  | done u he h => exact .done u false (.instr i hd he) h
  | wait x _ h => exact .wait h
  | fault k _ h => exact .fault k h

theorem step_ends {s t : State} (h : step s = .next t) : StepEnds s t := by
  rcases step_cases h with ⟨k, hk, ht⟩ | ⟨_, _, ht⟩ | ⟨op, why, _, hw, hd, hu⟩ | ⟨op, i, _, hw, hd, hi⟩
  · exact .fault k (by rw [ht, ← hk])
  · exact .fault _ ht
  · have none_decoded (i : Instr) : ¬Decodes s i := by
      rw [decodes_iff_of_fetch hw, hd]
      exact nofun
    exact .done _ true (.unknown none_decoded) ((completeWith_next true _ t).1 hu)
  · exact (exec_runs hi).stepEnds ((decodes_iff_of_fetch hw i).2 hd)

theorem step_total (s : State) : ∃ t, step s = .next t := by
  rcases hf : s.fault with _ | k
  · rcases hw : fetch s with _ | op
    · exact ⟨_, step_of_fetch_none hf hw⟩
    · rcases hd : decodeWord op with i | why
      · obtain ⟨t, ht, _⟩ := exec_total i s
        exact ⟨t, (step_of_instr hf hw hd).trans ht⟩
      · exact ⟨_, step_of_unknown hf hw hd⟩
  · exact ⟨_, step_of_fault hf⟩

/-- Settles O11: the step is total, and each way to end records its outputs. -/
theorem stepAlwaysAnswersNext : Obligations.StepAlwaysAnswersNext := by
  intro s
  obtain ⟨t, h⟩ := step_total s
  rcases step_ends h with ⟨u, unknown, _, rfl⟩ | rfl | ⟨k, rfl⟩ <;> exact ⟨_, _, h, rfl⟩

/-- Settles O12: a wait and a fault show what they leave. -/
theorem undoneStepChangesNothing : Obligations.UndoneStepChangesNothing := by
  intro s t out beep unknown h ho hne
  rcases step_ends h with ⟨u, unknown, _, rfl⟩ | rfl | ⟨k, rfl⟩
  · cases ho
    exact absurd rfl hne
  · cases ho
    exact ⟨rfl, rfl, rfl, fun _ => rfl, nofun⟩
  · cases ho
    exact ⟨rfl, rfl, rfl, nofun, fun _ e => congrArg some (StepOutcome.fault.inj e)⟩

/-! ### The timers that a completed step ticks from (R106, R174, R175) -/

/-- Only `Fx15` and `Fx18` leave a timer with another value than it had. -/
theorem InstrEffect.timerWriters {i : Instr} {s u : State} (h : InstrEffect s i u) :
    (u.dt ≠ s.dt → ∃ x, i = .setdt x) ∧ (u.st ≠ s.st → ∃ x, i = .setst x) := by
  cases h <;> simp

/-- `Fx15` and `Fx18` set their timer to `V[x]`; the shapes that leave the instruction open are none of theirs. -/
theorem InstrEffect.timerValues {i : Instr} {s u : State} (h : InstrEffect s i u) :
    (∀ x, i = .setdt x → u.dt = getV s x) ∧ (∀ x, i = .setst x → u.st = getV s x) := by
  cases h with
  | result _ _ hi | flagAndResult _ _ _ hi | skip _ hi | store _ hi =>
    constructor <;> rintro x rfl <;> simp [WritesOnly, WritesFlagThen, Skips] at hi
  | random | jump | indexedJump | call | ret | loadIndex | loadGlyph | addIndex | clear | draw | loadRegs | setDelay | setSound =>
    simp

section
variable {s u : State} (h : CycleEffect s u)
include h

theorem CycleEffect.timerWriters :
    (u.dt ≠ s.dt → ∃ x, Decodes s (.setdt x)) ∧ (u.st ≠ s.st → ∃ x, Decodes s (.setst x)) := by
  cases h with
  | instr i hd he =>
    obtain ⟨hdt, hst⟩ := he.timerWriters
    exact ⟨fun hne => (hdt hne).imp fun _ hi => by rwa [← hi], fun hne => (hst hne).imp fun _ hi => by rwa [← hi]⟩
  | unknown => exact ⟨absurd rfl, absurd rfl⟩

/-- The effect of the instruction decoded. -/
theorem CycleEffect.instrEffect {i : Instr} (hd : Decodes s i) : InstrEffect s i u := by
  cases h with
  | instr j hj he => exact decodes_unique hj hd ▸ he
  | unknown hn => exact absurd hd (hn i)

theorem CycleEffect.timerValues :
    (∀ x, Decodes s (.setdt x) → u.dt = getV s x) ∧ (∀ x, Decodes s (.setst x) → u.st = getV s x) :=
  ⟨fun x hd => (h.instrEffect hd).timerValues.1 x rfl, fun x hd => (h.instrEffect hd).timerValues.2 x rfl⟩

end

/-- Settles O14: the tick is from the timers that the effect left, and only `Fx15` and `Fx18` leave others than before. -/
theorem completedStepTicksOnce : Obligations.CompletedStepTicksOnce := by
  intro s t beep unknown h ho
  rcases step_ends h with ⟨u, _, he, rfl⟩ | rfl | ⟨k, rfl⟩
  · cases ho
    obtain ⟨dt_writer, st_writer⟩ := he.timerWriters
    obtain ⟨dt_value, st_value⟩ := he.timerValues
    have delay {b : Byte} (hb : u.dt = b) : (countDown u.dt).toNat = b.toNat - 1 := by rw [hb, toNat_countDown]
    have sound {b : Byte} (hb : u.st = b) :
        (countDown u.st).toNat = b.toNat - 1 ∧ beepOf u = decide (b.toNat = 1) := by
      rw [beepOf_eq, hb]
      exact ⟨toNat_countDown b, rfl⟩
    refine ⟨fun hn => delay ?_, fun x hx => delay (dt_value x hx), fun hn => sound ?_, fun x hx => sound (st_value x hx)⟩
    · exact by_contra fun hne => (dt_writer hne).elim hn
    · exact by_contra fun hne => (st_writer hne).elim hn
  · cases ho
  · cases ho

end Sys2Proof.Machine
end

section
/-! PROOFS. Jumps, calls and returns (spec 41_flow.md R120 to R123): what an instruction that completes with only `pc`, or only `pc` and
the call stack, rewritten leaves as it was, and from it the results of the four instructions. -/

namespace Sys2Proof.Machine

/-! ### Jumps (R121, R123) -/

/-- Everything a jump to `target` does. -/
theorem jump_spec {i : Instr} {s : State} {target : Word} (h : exec i s = complete { s with pc := target }) :
    ∃ t, exec i s = .next t ∧ t.pc.toNat = target.toNat ∧
      SameRegs s t ∧ SameOutsideRegs s t ∧ t.draws = s.draws ∧ Ticked s t :=
  ⟨_, h, rfl, fun _ => rfl,
    sameOutsideRegs_of_complete (u := { s with pc := target }) rfl rfl rfl rfl rfl rfl rfl rfl rfl, rfl, tickedFrom_complete _⟩

/-- The target of `Bnnn` is the plain sum: 12 bits and 8 bits stay within 16 (R123). -/
theorem toNat_zextNnn_add_zextByte (nnn : BitVec 12) (b : Byte) :
    (zextNnn nnn + zextByte b).toNat = nnn.toNat + b.toNat := by
  have := nnn.isLt
  have := b.isLt
  rw [BitVec.toNat_add, toNat_zextNnn, toNat_zextByte]
  omega

/-- Settles O25: a jump to `nnn`. -/
theorem jumpResult : Obligations.JumpResult := by
  refine ⟨fun _ hfam => decodeWord_fam1 hfam, fun s nnn => ?_⟩
  rw [← toNat_zextNnn nnn]
  exact jump_spec rfl

/-- Settles O26: a jump to a sum that cannot wrap. -/
theorem indexedJumpResult : Obligations.IndexedJumpResult := by
  refine ⟨fun _ hfam => decodeWord_famB hfam, fun s nnn => ?_⟩
  rw [← toNat_zextNnn_add_zextByte]
  exact jump_spec rfl

/-! ### Calls and returns (R120, R122) -/

/-- Everything an instruction does that completes with a new call stack and a new `pc`. -/
theorem setStackAndPc_spec {i : Instr} {s : State} {stack : Vector Word 16} {sp : Fin 17} {pc : Word}
    (h : exec i s = complete { s with stack := stack, sp := sp, pc := pc }) :
    ∃ t, exec i s = .next t ∧ t.pc = pc ∧ t.sp = sp ∧ t.stack = stack ∧
      SameRegs s t ∧ t.index = s.index ∧ SameScreen s t ∧ SameMemory s t ∧ SameLatches s t ∧
      t.draws = s.draws ∧ Ticked s t :=
  ⟨_, h, rfl, rfl, rfl, fun _ => rfl, rfl, ⟨fun _ _ => rfl, rfl⟩, fun _ => rfl, ⟨fun _ => rfl, rfl⟩, rfl, tickedFrom_complete _⟩

/-- Settles O27: below 16 entries the effect of `execCall_of_lt`, at 16 the fault. -/
theorem callResult : Obligations.CallResult := by
  refine ⟨fun _ hfam => decodeWord_fam2 hfam, fun s nnn => ⟨fun hs => ?_, fun hs => execCall_of_full hs nnn⟩⟩
  obtain ⟨t, ht, hpc, hsp, hstack, frame⟩ := setStackAndPc_spec (i := .call nnn) (execCall_of_lt hs nnn)
  refine ⟨t, ht, ?_, congrArg Fin.val hsp, fun k => ?_, frame⟩
  · rw [hpc, toNat_zextNnn]
  · rw [hstack, Fin.getElem_fin, Vector.getElem_set]
    exact if_congr eq_comm rfl rfl

/-- Settles O28: with an entry the effect of `execRet_of_succ`, with none the fault. -/
theorem returnResult : Obligations.ReturnResult := by
  refine ⟨rfl, fun s => ⟨fun k hs => ?_, execRet_of_empty⟩⟩
  obtain ⟨t, ht, hpc, hsp, hstack, frame⟩ := setStackAndPc_spec (i := .ret) (execRet_of_succ k.isLt hs)
  refine ⟨t, ht, fun hfits => ?_, congrArg Fin.val hsp, fun j => by rw [hstack], frame⟩
  rw [hpc, BitVec.toNat_add]
  exact Nat.mod_eq_of_lt hfits

/-- Settles O29: the slot that the return reads is the one where the call stored its own address. -/
theorem callThenReturn : Obligations.CallThenReturn := by
  intro s t u nnn hs hcall husp hustack
  obtain ⟨t', ht', _, hsp, hslot, _⟩ := (callResult.2 s nnn).1 hs
  cases ht'.symm.trans hcall
  obtain ⟨top, htop⟩ : ∃ k : Fin 16, k.val = s.sp.val := ⟨⟨s.sp.val, hs⟩, rfl⟩
  have hpopped : u.stack[top] = s.pc := by rw [hustack, hslot top, if_pos htop]
  obtain ⟨w, hw, hpc, hwsp, _⟩ := (returnResult.2 u).1 top (by rw [husp, hsp, htop])
  rw [hpopped] at hpc
  exact ⟨w, hw, hpc, Fin.ext (hwsp.trans htop)⟩

end Sys2Proof.Machine
end

section
/-! PROOFS. The register skips (spec 42_skip.md R125 to R128): the decision of the model's comparison brought to the comparison itself,
and what the low nibble decides in families 5 and 9. -/

namespace Sys2Proof.Machine

/-- A skip on the decision of `c` is a skip when `c` holds. -/
theorem skipsWhen_of_decide {i : Instr} {s : State} {c : Prop} [Decidable c]
    (h : exec i s = complete (skipWhen (decide c) s)) : SkipsWhen i s c := by
  simpa only [decide_eq_true_eq] using skipWhen_spec h

/-- A word that its low nibble alone decides (D5): the instruction where it is 0, `UNKNOWN` elsewhere. -/
theorem decodeWord_zero_nibble_cases {op : Word} {i : Instr} {why : Unmatched}
    (h : decodeWord op = if nOf op = 0 then .instr i else .unknown why) :
    (nOf op = 0 → decodeWord op = .instr i) ∧ (nOf op ≠ 0 → ∃ why, decodeWord op = .unknown why) :=
  ⟨fun hn => h.trans (if_pos hn), fun hn => ⟨why, h.trans (if_neg hn)⟩⟩

/-- Settles O30: each skip completes with `skipWhen` on the decision of its comparison. -/
theorem registerSkipResults : Obligations.RegisterSkipResults :=
  ⟨fun _ hfam => decodeWord_fam3 hfam, fun _ hfam => decodeWord_fam4 hfam,
    fun _ hfam => decodeWord_zero_nibble_cases (decodeWord_fam5 hfam),
    fun _ hfam => decodeWord_zero_nibble_cases (decodeWord_fam9 hfam),
    fun _ _ _ _ => ⟨skipsWhen_of_decide rfl, skipsWhen_of_decide rfl, skipsWhen_of_decide rfl, skipsWhen_of_decide rfl⟩⟩

end Sys2Proof.Machine
end

section
/-! PROOFS. Register loads, arithmetic and the random byte (spec 43_alu.md R130 to R142): the flags and the results of the byte
operations as numbers, and from them what each instruction writes. -/

namespace Sys2Proof.Machine

/-! ### Flags as numbers (R136 to R140) -/

theorem toNat_flagByte (b : Bool) : (flagByte b).toNat = b.toNat := by
  cases b <;> rfl

theorem toNat_flagByte_decide (c : Prop) [Decidable c] : (flagByte (decide c)).toNat = if c then 1 else 0 := by
  by_cases h : c
  · rw [decide_eq_true h, if_pos h, toNat_flagByte, Bool.toNat_true]
  · rw [decide_eq_false h, if_neg h, toNat_flagByte, Bool.toNat_false]

theorem toNat_carryFlag (a b : Byte) : (carryFlag a b).toNat = if 255 < a.toNat + b.toNat then 1 else 0 :=
  toNat_flagByte_decide _

theorem toNat_notBorrowFlag (a b : Byte) : (notBorrowFlag a b).toNat = if b.toNat ≤ a.toNat then 1 else 0 :=
  toNat_flagByte_decide _

/-- A bit of a byte as a flag. -/
theorem toNat_flagByte_getLsbD (a : Byte) (k : Nat) : (flagByte (a.getLsbD k)).toNat = a.toNat / 2 ^ k % 2 :=
  (toNat_flagByte _).trans (Nat.toNat_testBit a.toNat k)

theorem toNat_lowBitFlag (a : Byte) : (lowBitFlag a).toNat = a.toNat % 2 := by
  rw [lowBitFlag, toNat_flagByte_getLsbD, pow_zero, Nat.div_one]

/-- The highest bit needs no reduction: a byte is below twice 128. -/
theorem toNat_highBitFlag (a : Byte) : (highBitFlag a).toNat = a.toNat / 128 := by
  have := a.isLt
  rw [highBitFlag, toNat_flagByte_getLsbD]
  omega

/-! ### Results as numbers, modulo 256 (R142) -/

theorem toNat_sub_byte (a b : Byte) : (a - b).toNat = (a.toNat + 256 - b.toNat) % 256 := by
  have := b.isLt
  rw [BitVec.toNat_sub]
  omega

theorem toNat_shiftRight_one (a : Byte) : (a >>> 1).toNat = a.toNat / 2 := by
  rw [BitVec.toNat_ushiftRight, Nat.shiftRight_one]

theorem toNat_shiftLeft_one (a : Byte) : (a <<< 1).toNat = 2 * a.toNat % 256 := by
  rw [BitVec.toNat_shiftLeft, Nat.shiftLeft_eq, pow_one, mul_comm]

/-! ### Flag and result (R136 to R140) -/

/-- Everything `writeFlagAndResult` does, by the numbers that the flag and the result stand for. -/
theorem writesFlagAndRegister_of {i : Instr} {s : State} {f b : Byte} {x : Reg} {flag result : Nat}
    (h : exec i s = writeFlagAndResult s f x b) (hf : f.toNat = flag) (hb : b.toNat = result) :
    WritesFlagAndRegister i s flag x result := by
  subst hf hb
  exact writeFlagAndResult_spec h

/-- Settles O34: the carry, then the sum of bytes. -/
theorem addResult : Obligations.AddResult :=
  fun _ _ _ => writesFlagAndRegister_of rfl (toNat_carryFlag _ _) (BitVec.toNat_add _ _)

/-- Settles O35: the not-borrow, then the difference of bytes, in the one order and in the other. -/
theorem subtractResults : Obligations.SubtractResults :=
  fun _ _ _ => ⟨writesFlagAndRegister_of rfl (toNat_notBorrowFlag _ _) (toNat_sub_byte _ _),
    writesFlagAndRegister_of rfl (toNat_notBorrowFlag _ _) (toNat_sub_byte _ _)⟩

/-- Settles O36: the lowest bit, then the half; the highest bit, then the double. -/
theorem shiftResults : Obligations.ShiftResults :=
  fun _ _ _ => ⟨writesFlagAndRegister_of rfl (toNat_lowBitFlag _) (toNat_shiftRight_one _),
    writesFlagAndRegister_of rfl (toNat_highBitFlag _) (toNat_shiftLeft_one _)⟩

/-! ### Results without a flag (R130 to R135) -/

/-- A word of family 8 decodes by its low nibble. -/
theorem decodeWord_fam8_of_nibble {op : Word} {n : BitVec 4} (h : famOf op = 0x8) (hn : nOf op = n) :
    decodeWord op = decodeFamily8 (xOf op) (yOf op) n :=
  hn ▸ decodeWord_fam8 h

/-- Settles O32: the family decides for `6xkk`, family and low nibble for the rest; each meaning is one `writeResult`. -/
theorem loadAndLogicResults : Obligations.LoadAndLogicResults := by
  refine ⟨fun _ hfam => decodeWord_fam6 hfam, fun op hfam => ?_, fun s x y kk => ?_⟩
  · have byNibble {n : BitVec 4} (hn : nOf op = n) := decodeWord_fam8_of_nibble hfam hn
    exact ⟨byNibble, byNibble, byNibble, byNibble⟩
  · exact ⟨writeResult_spec rfl, writeResult_spec rfl, writeResult_spec rfl, writeResult_spec rfl, writeResult_spec rfl⟩

/-- Settles O33: the sum of bytes. -/
theorem addImmediateResult : Obligations.AddImmediateResult :=
  ⟨fun _ hfam => decodeWord_fam7 hfam,
    fun s x kk => ⟨getV s x + kk, BitVec.toNat_add _ _, writeResult_spec rfl⟩⟩

/-! ### The random byte (R141) -/

/-- No bit outside the mask is left in a masked byte. -/
theorem and_mask_and_not (a mask : Byte) : a &&& mask &&& ~~~mask = 0 := by
  rw [BitVec.and_assoc, BitVec.and_not_self]
  exact BitVec.and_zero

/-- Settles O37: the masked byte goes to `V[x]` of the state that has counted the draw. -/
theorem randomByteResult : Obligations.RandomByteResult := by
  intro s x kk
  have written (r : Reg) := getV_setV { s with draws := s.draws + 1 } x r (Config.randomByte s.draws &&& kk)
  have result := (written x).trans (if_pos rfl)
  refine ⟨_, rfl, result, ?_, rfl, fun r hr => (written r).trans (if_neg hr), pcPlus_of_eq (n := 2) rfl,
    sameOutsideRegs_of_complete (s := s) rfl rfl rfl rfl rfl rfl rfl rfl rfl, tickedFrom_complete _⟩
  exact (congrArg (· &&& ~~~kk) result).trans (and_mask_and_not _ kk)

end Sys2Proof.Machine
end

section
/-! PROOFS. Index register and memory instructions (spec 44_index_memory.md R150 to R155): what an instruction that sets `I`, or stores a
run of bytes at `I`, does to the whole state, and from it the results of the six instructions. -/

namespace Sys2Proof.Machine

/-! ### Loads of `I` (R150, R152) -/

/-- Everything an instruction does that sets `I` and moves on. -/
theorem setIndex_spec {i : Instr} {s : State} {w : Word} {n : Nat}
    (h : exec i s = complete (advance { s with index := w } 2)) (hw : w.toNat = n) :
    ∃ t, exec i s = .next t ∧ t.index.toNat = n ∧ SameRegs s t ∧ PcPlus 2 s t ∧
      SameStack s t ∧ SameScreen s t ∧ SameMemory s t ∧ SameLatches s t ∧ t.draws = s.draws ∧ Ticked s t :=
  ⟨_, h, hw, fun _ => rfl, pcPlus_of_eq (n := 2) rfl, ⟨rfl, fun _ => rfl⟩, ⟨fun _ _ => rfl, rfl⟩, fun _ => rfl,
    ⟨fun _ => rfl, rfl⟩, rfl, tickedFrom_complete _⟩

/-- Five times a byte stays within 16 bits (R152). -/
theorem toNat_zextByte_mul_five (b : Byte) : (zextByte b * 5).toNat = b.toNat * 5 := by
  have := b.isLt
  rw [BitVec.toNat_mul, toNat_zextByte]
  exact Nat.mod_eq_of_lt (show b.toNat * 5 < 65536 by omega)

/-- A word of family F decodes by its low byte. -/
theorem decodeWord_famF_of_byte {op : Word} {kk : Byte} (h : famOf op = 0xF) (hk : kkOf op = kk) :
    decodeWord op = decodeFamilyF (xOf op) kk :=
  hk ▸ decodeWord_famF h

/-- Settles O38: `I` is set to `nnn`, or to a product that cannot wrap. -/
theorem indexLoadResults : Obligations.IndexLoadResults :=
  ⟨fun _ hfam => decodeWord_famA hfam, fun _ hfam hk => decodeWord_famF_of_byte hfam hk,
    fun s => ⟨fun nnn => setIndex_spec rfl (toNat_zextNnn nnn), fun x => setIndex_spec rfl (toNat_zextByte_mul_five (getV s x))⟩⟩

/-! ### The addition to `I` (R151) -/

theorem toNat_indexFlag (i : Word) (a : Byte) : (indexFlag i a).toNat = if 0xFFF < i.toNat + a.toNat then 1 else 0 :=
  toNat_flagByte_decide _

theorem toNat_add_zextByte (i : Word) (a : Byte) : (i + zextByte a).toNat = (i.toNat + a.toNat) % 65536 := by
  rw [BitVec.toNat_add, toNat_zextByte]

/-- Settles O39: flag and sum are both of the old `V[x]`, which the model captures before it writes the flag. -/
theorem indexAddResult : Obligations.IndexAddResult := by
  intro s x
  have written (r : Reg) := getV_setV s flagReg r (indexFlag s.index (getV s x))
  refine ⟨_, rfl, toNat_add_zextByte s.index (getV s x), ?_, fun r hr => (written r).trans (if_neg hr), pcPlus_of_eq (n := 2) rfl,
    ⟨rfl, fun _ => rfl⟩, ⟨fun _ _ => rfl, rfl⟩, fun _ => rfl, ⟨fun _ => rfl, rfl⟩, rfl, tickedFrom_complete _⟩
  rw [← toNat_indexFlag]
  exact congrArg BitVec.toNat ((written 15).trans (if_pos rfl))

/-! ### Stores at `I` (R153, R154) -/

/-- Everything a store at `I` within its range does: byte `k` of the run goes to `I + k` (R65). -/
theorem storeAtIndex_spec {i : Instr} {s : State} {bytes : List Byte} (h : exec i s = storeAtIndex s bytes)
    (hwf : Memory.wf s.mem = true) (hb : 0 < bytes.length) (hlo : 0x200 ≤ s.index.toNat)
    (hhi : s.index.toNat + bytes.length ≤ 4096) :
    ∃ t, exec i s = .next t ∧
      (∀ k, k < bytes.length → readByte t.mem (s.index.toNat + k) = bytes.getD k 0) ∧
      (∀ a, a < s.index.toNat ∨ s.index.toNat + bytes.length ≤ a → readByte t.mem a = readByte s.mem a) ∧
      t.index = s.index ∧ SameRegs s t ∧ PcPlus 2 s t ∧ SameStack s t ∧ SameScreen s t ∧ SameLatches s t ∧
      t.draws = s.draws ∧ Ticked s t := by
  refine ⟨_, h.trans (storeAtIndex_of_inRange hb hlo hhi), fun k hk => ?_, fun a ha => readByte_writeBytes_outside s.mem ha,
    rfl, fun _ => rfl, pcPlus_of_eq (n := 2) rfl, ⟨rfl, fun _ => rfl⟩, ⟨fun _ _ => rfl, rfl⟩, ⟨fun _ => rfl, rfl⟩, rfl,
    tickedFrom_complete _⟩
  have stored := (readByte_writeBytes hwf hhi (s.index.toNat + k)).trans (if_pos (by omega))
  rwa [Nat.add_sub_cancel_left] at stored

/-- The digits as numbers: each fits a byte (R153). -/
theorem toNat_decimalDigits (a : Byte) :
    ((decimalDigits a).getD 0 0).toNat = a.toNat / 100 ∧ ((decimalDigits a).getD 1 0).toNat = a.toNat / 10 % 10 ∧
      ((decimalDigits a).getD 2 0).toNat = a.toNat % 10 := by
  have fits {n : Nat} (hn : n < 256) : (BitVec.ofNat 8 n).toNat = n := (BitVec.toNat_ofNat n 8).trans (Nat.mod_eq_of_lt hn)
  have := a.isLt
  exact ⟨fits (by omega), fits (by omega), fits (by omega)⟩

/-- Settles O40: the run stored is the three digits. -/
theorem decimalStoreResult : Obligations.DecimalStoreResult := by
  intro s x hwf hlo hhi
  obtain ⟨hundreds, tens, ones⟩ := toNat_decimalDigits (getV s x)
  have hlen := length_decimalDigits (getV s x)
  obtain ⟨t, ht, stored, outside, frame⟩ :=
    storeAtIndex_spec (i := .bcd x) (bytes := decimalDigits (getV s x)) rfl hwf (by omega) hlo (by omega)
  refine ⟨t, ht, ?_, ?_, ?_, fun a ha => outside a (by omega), frame⟩
  · exact (congrArg BitVec.toNat (stored 0 (by omega))).trans hundreds
  · exact (congrArg BitVec.toNat (stored 1 (by omega))).trans tens
  · exact (congrArg BitVec.toNat (stored 2 (by omega))).trans ones

/-- Settles O41: the run stored is the first registers, one byte each. -/
theorem registerStoreResult : Obligations.RegisterStoreResult := by
  intro s x hwf hlo hhi
  have hlen := length_firstRegs s x
  obtain ⟨t, ht, _, outside, frame⟩ :=
    storeAtIndex_spec (i := .stm x) (bytes := firstRegs s x) rfl hwf (by omega) hlo (by omega)
  exact ⟨t, ht, fun k hk => exec_stm_readByte hwf hlo hhi ht hk, fun a ha => outside a (by omega), frame⟩

/-! ### The load from `I` (R155) -/

theorem execLdm_of_inRange {s : State} {x : Reg} (h : s.index.toNat + x.val ≤ 0xFFF) :
    execLdm x s = complete (advance (setFirstRegs s (dataBytes s (regCount x))) 2) :=
  have inRange : s.index.toNat + (x.val + 1) ≤ 4096 := by omega
  unlessFault_of_none (readCheck_eq_none.2 (.inr inRange)) s _

/-- Settles O42: the bytes loaded are as many as the registers named, so those above keep their values. -/
theorem registerLoadResult : Obligations.RegisterLoadResult := by
  intro s x hhi
  have loaded (r : Reg) := getV_setFirstRegs s (dataBytes s (regCount x)) r
  have hlen := length_dataBytes s (regCount x)
  refine ⟨_, execLdm_of_inRange hhi, fun k hk => (loaded k).trans ?_, fun k hk => (loaded k).trans ?_, pcPlus_of_eq (n := 2) rfl,
    sameOutsideRegs_of_complete (s := s) rfl rfl rfl rfl rfl rfl rfl rfl rfl, rfl, tickedFrom_complete _⟩
  · exact getD_readBytes s.mem s.index.toNat (Nat.lt_succ_of_le hk) _
  · exact List.getD_eq_default _ _ (hlen.trans_le hk)

end Sys2Proof.Machine
end

section
/-! PROOFS. Display (spec 45_display.md R160 to R164): the sprite bits that `Dxyn` draws, what the blit makes of each pixel and of the
flag, and from them one draw, two equal draws, and the clearing of the screen. -/

namespace Sys2Proof.Machine

/-! ### The bits of the sprite drawn (R162) -/

/-- The bits that `Dxyn` draws, each with the pixel it falls on. -/
def drawnBits (s : State) (x y : Reg) (n : BitVec 4) : List SpriteBit :=
  spriteBits (getV s x).toNat (getV s y).toNat (dataBytes s n.toNat)

theorem mem_drawnBits {s : State} {x y : Reg} {n : BitVec 4} {e : SpriteBit} :
    e ∈ drawnBits s x y n ↔ ∃ r c, r < n.toNat ∧ c < 8 ∧ e = (spriteBit s r c, targetPixel s x y r c) := by
  have row {r : Nat} (hr : r < n.toNat) : (dataBytes s n.toNat).getD r 0 = readByte s.mem (s.index.toNat + r) :=
    getD_readBytes s.mem s.index.toNat hr 0
  rw [drawnBits, mem_spriteBits, length_dataBytes]
  refine exists₂_congr fun r c => and_congr_right fun hr => ?_
  rw [row hr]
  rfl

/-- A sprite is lower than the grid and narrower than it, so its bits fall on different pixels. -/
theorem targetPixel_inj {s : State} {x y : Reg} {n : BitVec 4} {r r' c c' : Nat} (hr : r < n.toNat) (hr' : r' < n.toNat)
    (hc : c < 8) (hc' : c' < 8) (h : targetPixel s x y r c = targetPixel s x y r' c') : r = r' ∧ c = c' := by
  simp only [targetPixel, rowOf, colOf, Prod.mk.injEq, Fin.mk.injEq] at h
  omega

theorem set_mem_drawnBits_iff {s : State} {x y : Reg} {n : BitVec 4} {r c : Nat} (hr : r < n.toNat) (hc : c < 8) :
    (true, targetPixel s x y r c) ∈ drawnBits s x y n ↔ spriteBit s r c = true := by
  rw [mem_drawnBits]
  constructor
  · rintro ⟨r', c', hr', hc', e⟩
    obtain ⟨hbit, hpixel⟩ := Prod.mk.inj e
    obtain ⟨rfl, rfl⟩ := targetPixel_inj hr hr' hc hc' hpixel
    exact hbit.symm
  · intro hbit
    exact ⟨r, c, hr, hc, by rw [hbit]⟩

/-! ### The blit of `Dxyn` (R161, R163) -/

/-- What the blit unit answers to `Dxyn`. -/
def spriteBlit (s : State) (x y : Reg) (n : BitVec 4) : Blit :=
  blit s.fb (getV s x) (getV s y) (dataBytes s n.toNat)

/-- Some set bit of the sprite falls on a lit pixel. -/
def Collides (s : State) (x y : Reg) (n : BitVec 4) : Prop :=
  ∃ r c, r < n.toNat ∧ c < 8 ∧ spriteBit s r c = true ∧
    pixel s.fb (targetPixel s x y r c).1 (targetPixel s x y r c).2 = true

section
variable (s : State) (x y : Reg) (n : BitVec 4)

theorem length_dataBytes_le : (dataBytes s n.toNat).length ≤ 32 := by
  rw [length_dataBytes]
  omega

/-- The blit flips the pixels under the set bits. -/
theorem pixel_spriteBlit (q : Fin 32) (d : Fin 64) :
    pixel (spriteBlit s x y n).fb q d = (pixel s.fb q d ^^ decide ((true, q, d) ∈ drawnBits s x y n)) :=
  (blit_spec s.fb _ _ _ (length_dataBytes_le s n)).1 q d

theorem pixel_spriteBlit_target {r c : Nat} (hr : r < n.toNat) (hc : c < 8) :
    pixel (spriteBlit s x y n).fb (targetPixel s x y r c).1 (targetPixel s x y r c).2 =
      (pixel s.fb (targetPixel s x y r c).1 (targetPixel s x y r c).2 ^^ spriteBit s r c) := by
  have bit : decide ((true, targetPixel s x y r c) ∈ drawnBits s x y n) = spriteBit s r c := by
    rw [Bool.eq_iff_iff, decide_eq_true_iff]
    exact set_mem_drawnBits_iff hr hc
  exact (pixel_spriteBlit s x y n _ _).trans (congrArg _ bit)

theorem pixel_spriteBlit_of_not_target {q : Fin 32} {d : Fin 64}
    (h : ∀ r c, r < n.toNat → c < 8 → targetPixel s x y r c ≠ (q, d)) :
    pixel (spriteBlit s x y n).fb q d = pixel s.fb q d := by
  have outside : (true, q, d) ∉ drawnBits s x y n := by
    rw [mem_drawnBits]
    rintro ⟨r, c, hr, hc, e⟩
    exact h r c hr hc (Prod.mk.inj e).2.symm
  rw [pixel_spriteBlit, decide_eq_false outside, Bool.xor_false]

theorem hit_spriteBlit_iff : (spriteBlit s x y n).hit = true ↔ Collides s x y n := by
  have hit : (spriteBlit s x y n).hit = (drawnBits s x y n).any fun e => e.1 && pixel s.fb e.2.1 e.2.2 :=
    (blit_spec s.fb _ _ _ (length_dataBytes_le s n)).2
  rw [hit, List.any_eq_true]
  simp only [mem_drawnBits, Bool.and_eq_true]
  constructor
  · rintro ⟨_, ⟨r, c, hr, hc, rfl⟩, hbit, hlit⟩
    exact ⟨r, c, hr, hc, hbit, hlit⟩
  · rintro ⟨r, c, hr, hc, hbit, hlit⟩
    exact ⟨_, ⟨r, c, hr, hc, rfl⟩, hbit, hlit⟩

/-! ### One draw (R161 to R164) -/

/-- The effect of `Dxyn` within its range, before the tick. -/
def drawn : State :=
  advance { setV s flagReg (flagByte (spriteBlit s x y n).hit) with fb := (spriteBlit s x y n).fb, redraw := true } 2

/-- The state that `Dxyn` leaves within its range. -/
def afterDraw : State :=
  { tick (drawn s x y n) with lastStep := some ⟨.done, beepOf (drawn s x y n), false⟩ }

@[simp] theorem afterDraw_fb : (afterDraw s x y n).fb = (spriteBlit s x y n).fb := rfl

variable {s n}

theorem exec_drw_of_inRange (h : n = 0 ∨ s.index.toNat + n.toNat - 1 ≤ 0xFFF) :
    exec (.drw x y n) s = .next (afterDraw s x y n) :=
  have inRange : n.toNat = 0 ∨ s.index.toNat + n.toNat ≤ 4096 := h.imp (congrArg BitVec.toNat) fun _ => by omega
  unlessFault_of_none (readCheck_eq_none.2 inRange) s _

theorem eq_afterDraw {t : State} (h : n = 0 ∨ s.index.toNat + n.toNat - 1 ≤ 0xFFF) (ht : exec (.drw x y n) s = .next t) :
    t = afterDraw s x y n :=
  Host.Outcome.next.inj (ht.symm.trans (exec_drw_of_inRange x y h))

variable (s n)

theorem getV_afterDraw_flag : getV (afterDraw s x y n) 15 = flagByte (spriteBlit s x y n).hit :=
  (getV_setV s flagReg 15 _).trans (if_pos rfl)

theorem getV_afterDraw_of_ne {r : Reg} (hr : r ≠ 15) : getV (afterDraw s x y n) r = getV s r :=
  (getV_setV s flagReg r _).trans (if_neg hr)

theorem getV_afterDraw_flag_of_collides (h : Collides s x y n) : getV (afterDraw s x y n) 15 = 1 := by
  rw [getV_afterDraw_flag, (hit_spriteBlit_iff s x y n).2 h, flagByte_true]

theorem getV_afterDraw_flag_of_not_collides (h : ¬Collides s x y n) : getV (afterDraw s x y n) 15 = 0 := by
  rw [getV_afterDraw_flag, Bool.eq_false_iff.2 (mt (hit_spriteBlit_iff s x y n).1 h), flagByte_false]

theorem getV_afterDraw_flag_eq_one_iff : getV (afterDraw s x y n) 15 = 1 ↔ Collides s x y n := by
  refine ⟨fun h => ?_, getV_afterDraw_flag_of_collides s x y n⟩
  by_contra hne
  rw [getV_afterDraw_flag_of_not_collides s x y n hne] at h
  exact absurd h (by decide)

end

/-- Settles O46: pixels and flag as the blit leaves them; the rest of the state is that of `s`. -/
theorem drawResult : Obligations.DrawResult := by
  intro s x y n h
  refine ⟨afterDraw s x y n, exec_drw_of_inRange x y h, fun r c hr hc => pixel_spriteBlit_target s x y n hr hc,
    fun q d hout => pixel_spriteBlit_of_not_target s x y n hout, getV_afterDraw_flag_of_collides s x y n, fun hoff => ?_,
    rfl, fun r hr => getV_afterDraw_of_ne s x y n hr, pcPlus_of_eq (n := 2) rfl, rfl, ⟨rfl, fun _ => rfl⟩, fun _ => rfl,
    ⟨fun _ => rfl, rfl⟩, rfl, tickedFrom_complete _⟩
  refine getV_afterDraw_flag_of_not_collides s x y n ?_
  rintro ⟨r, c, hr, hc, hbit, hlit⟩
  exact Bool.false_ne_true ((hoff r c hr hc hbit).symm.trans hlit)

/-! ### Two equal draws (R163) -/

section
variable {s : State} {x y : Reg} {n : BitVec 4} (hx : x ≠ 15) (hy : y ≠ 15)
include hx hy

/-- A draw writes no register but the flag, so an equal draw after it goes to the same pixels. -/
theorem targetPixel_afterDraw (r c : Nat) : targetPixel (afterDraw s x y n) x y r c = targetPixel s x y r c := by
  rw [targetPixel, getV_afterDraw_of_ne s x y n hx, getV_afterDraw_of_ne s x y n hy, targetPixel]

/-- An equal draw after a draw draws the same bits. -/
theorem drawnBits_afterDraw : drawnBits (afterDraw s x y n) x y n = drawnBits s x y n := by
  rw [drawnBits, getV_afterDraw_of_ne s x y n hx, getV_afterDraw_of_ne s x y n hy]
  rfl

/-- What the first draw flips, the second flips back. -/
theorem pixel_afterDraw_twice (q : Fin 32) (d : Fin 64) :
    pixel (afterDraw (afterDraw s x y n) x y n).fb q d = pixel s.fb q d := by
  rw [afterDraw_fb, pixel_spriteBlit, drawnBits_afterDraw hx hy, afterDraw_fb, pixel_spriteBlit, Bool.xor_assoc, Bool.xor_self,
    Bool.xor_false]

/-- The second draw finds a lit pixel under a set bit where the first found an unlit one. -/
theorem collides_afterDraw_iff : Collides (afterDraw s x y n) x y n ↔
    ∃ r c, r < n.toNat ∧ c < 8 ∧ spriteBit s r c = true ∧
      pixel s.fb (targetPixel s x y r c).1 (targetPixel s x y r c).2 = false := by
  refine exists₂_congr fun r c => and_congr_right fun hr => and_congr_right fun hc => and_congr_right fun hbit => ?_
  have hbit : spriteBit s r c = true := hbit
  rw [targetPixel_afterDraw hx hy, afterDraw_fb, pixel_spriteBlit_target s x y n hr hc, hbit, Bool.xor_true, Bool.not_eq_true']

end

/-- Settles O47: the two flips cancel, and the flag of the second draw is its collision. -/
theorem drawTwiceRestores : Obligations.DrawTwiceRestores := by
  intro s t u x y n hx hy h ht hu
  obtain rfl := eq_afterDraw x y h ht
  obtain rfl := eq_afterDraw x y (s := afterDraw s x y n) h hu
  exact ⟨pixel_afterDraw_twice hx hy,
    (getV_afterDraw_flag_eq_one_iff _ x y n).trans (collides_afterDraw_iff hx hy)⟩

/-- Refutes O48: after reset the top row of glyph 0, at address 0, is drawn at the origin three times. The first draw lights its four
pixels; of the two equal draws after it the one turns them off and the other, without a collision, on again. -/
theorem not_secondDrawAlwaysCollides : ¬ Obligations.SecondDrawAlwaysCollides := by
  intro h
  have flag : getV (afterDraw (afterDraw (afterDraw State.reset 0 0 1) 0 0 1) 0 0 1) 15 = 1 :=
    h (afterDraw State.reset 0 0 1) _ _ 0 0 1 (by decide) (by decide) (.inr (by decide))
      (exec_drw_of_inRange 0 0 (.inr (by decide))) (exec_drw_of_inRange 0 0 (.inr (by decide)))
      ⟨0, 0, by decide, by decide, by decide⟩
  exact absurd flag (by decide)

/-! ### The cleared screen (R160) -/

/-- Settles O45: every pixel of the blank frame is off; the rest of the state is that of `s`. -/
theorem clearScreenResult : Obligations.ClearScreenResult :=
  ⟨rfl, fun _ => ⟨_, rfl, pixel_blankFrame, rfl, fun _ => rfl, pcPlus_of_eq (n := 2) rfl, rfl, ⟨rfl, fun _ => rfl⟩, fun _ => rfl,
    ⟨fun _ => rfl, rfl⟩, rfl, tickedFrom_complete _⟩⟩

end Sys2Proof.Machine
end

section
/-! PROOFS. Keys and timers (spec 46_keys_timers.md R170 to R175): the key skips by the index that `V[x]` holds, the two ways `Fx0A`
ends by what KEY_PICK finds, and an instruction that sets a timer, which ticks from the value it set. -/

namespace Sys2Proof.Machine

/-! ### The key skips (R170, R171) -/

/-- A key skip skips when the key that `V[x]` names has the level it asks for. -/
theorem skipOnKey_skipsWhen {i : Instr} {s : State} {x : Reg} {level : Bool} (h : exec i s = skipOnKey s x level) {k : Key}
    (hk : (getV s x).toNat = k.val) : SkipsWhen i s (keyDown s k = level) :=
  skipsWhen_of_decide (h.trans (skipOnKey_of_some (keyOf_eq_some.2 hk) level))

/-- A key skip takes the fault where `V[x]` names no key (R183). -/
theorem skipOnKey_takesFault {i : Instr} {s : State} {x : Reg} {level : Bool} (h : exec i s = skipOnKey s x level)
    (hx : 15 < (getV s x).toNat) : TakesFault i s .keyIndexOutOfRange :=
  h.trans (skipOnKey_of_none (keyOf_eq_none.2 hx) level)

/-- Settles O31: `Ex9E` is the key skip on level 1, `ExA1` the one on level 0. -/
theorem keySkipResults : Obligations.KeySkipResults :=
  fun _ _ => ⟨fun _ hk => ⟨skipOnKey_skipsWhen rfl hk, skipOnKey_skipsWhen rfl hk⟩,
    fun hx => ⟨skipOnKey_takesFault rfl hx, skipOnKey_takesFault rfl hx⟩⟩

/-! ### The key wait (R173) -/

theorem pressedKeys_eq_nil {s : State} (h : ∀ k, keyDown s k = false) : pressedKeys s = [] := by
  refine List.eq_nil_iff_forall_not_mem.2 fun k hk => ?_
  exact Bool.false_ne_true ((h k).symm.trans ((mem_pressedKeys s k).1 hk))

/-- Settles O49: no KEY_PICK finds a key among none, so the step waits. -/
theorem keyWaitChangesNothing : Obligations.KeyWaitChangesNothing :=
  fun _ x h => execWaitk_of_none (keyPick_eq_none.2 (pressedKeys_eq_nil h)) x

/-- Settles O50: the key picked is one of the pressed keys, so it is the only one where there is only one. -/
theorem keyWaitCompletes : Obligations.KeyWaitCompletes := by
  intro s x h
  obtain ⟨k, hpick⟩ := exists_keyPick s.params.keyPick h
  have pressed : keyDown s k = true := (mem_pressedKeys s k).1 (keyPick_mem hpick)
  obtain ⟨b, hb, written⟩ := waitk_writes_picked hpick x
  exact ⟨k, b, pressed, fun _ only => only k pressed, hb, written⟩

/-! ### The timers (R172, R174, R175) -/

/-- Everything an instruction does that sets the timers and moves on: they tick from the values set (R106). -/
theorem setTimers_spec {i : Instr} {s : State} {d u : Byte} (h : exec i s = complete (advance { s with dt := d, st := u } 2)) :
    ∃ t, exec i s = .next t ∧ TickedFrom d u t ∧ SameRegs s t ∧ PcPlus 2 s t ∧ SameOutsideRegs s t ∧ t.draws = s.draws :=
  ⟨_, h, tickedFrom_complete _, fun _ => rfl, pcPlus_of_eq (n := 2) rfl,
    sameOutsideRegs_of_complete (s := s) rfl rfl rfl rfl rfl rfl rfl rfl rfl, rfl⟩

/-- Settles O51: `Fx07` writes `DT` of the state before its tick; `Fx15` and `Fx18` set the one timer and keep the other. -/
theorem timerAccessResults : Obligations.TimerAccessResults := by
  refine ⟨fun op hfam => ?_, fun s x => ⟨writeResult_spec rfl, setTimers_spec rfl, setTimers_spec rfl⟩⟩
  have byByte {kk : Byte} (hk : kkOf op = kk) := decodeWord_famF_of_byte hfam hk
  exact ⟨byByte, byByte, byByte⟩

end Sys2Proof.Machine
end

section
/-! PROOFS. The fatal faults of a step (spec 60_exceptions.md R180 to R183, R188): the check that an instruction makes before its first
write, said once as a function, which is what the latch holds after the instruction and is the table of R180. -/

namespace Sys2Proof.Machine

/-! ### The check of each instruction (R66, R67, R120, R122, R170, R188) -/

/-- The fault that `i` finds due in `s` before its first write (R188), if there is one. -/
def faultCheck (s : State) : Instr → Option Fault
  | .call _ => if s.sp.val = 16 then some .stackOverflow else none
  | .ret => if s.sp.val = 0 then some .stackUnderflow else none
  | .skp x | .sknp x => if 15 < (getV s x).toNat then some .keyIndexOutOfRange else none
  | .drw _ _ n => readCheck s.index.toNat n.toNat
  | .ldm x => readCheck s.index.toNat (x.val + 1)
  | .bcd _ => writeCheck s.index.toNat 3
  | .stm x => writeCheck s.index.toNat (x.val + 1)
  | _ => none

theorem faultCheck_of_not_mayFault {i : Instr} (hi : ¬MayFault i) (s : State) : faultCheck s i = none := by
  cases i with
  | call | ret | skp | sknp | drw | ldm | bcd | stm => simp [MayFault] at hi
  | _ => rfl

/-! ### What the latch holds after an instruction (R31, R184) -/

/-- A check, and then an effect that leaves the latch clear: the latch holds what the check found. -/
theorem fault_of_unlessFault {s t u : State} {check : Option Fault} (h : unlessFault check s (complete u) = .next t)
    (hu : u.fault = none) : t.fault = check := by
  rcases unlessFault_next.1 h with ⟨k, rfl, hr⟩ | ⟨rfl, hc⟩
  · rw [(raise_next k s t).1 hr]
  · rw [(complete_next u t).1 hc]
    exact hu

section
variable {s t : State} (hf : s.fault = none)
include hf

theorem execCall_fault {nnn : BitVec 12} (h : execCall nnn s = .next t) : t.fault = faultCheck s (.call nnn) := by
  by_cases hs : s.sp.val = 16
  · rw [execCall_of_full hs, raise_next] at h
    rw [h, faultCheck, if_pos hs]
  · rw [execCall_of_lt (by omega), complete_next] at h
    rw [h, faultCheck, if_neg hs]
    exact hf

theorem execRet_fault (h : execRet s = .next t) : t.fault = faultCheck s .ret := by
  rcases hs : s.sp.val with _ | k
  · rw [execRet_of_empty hs, raise_next] at h
    rw [h, faultCheck, if_pos hs]
  · rw [execRet_of_succ (by omega) hs, complete_next] at h
    rw [h, faultCheck, if_neg (by omega)]
    exact hf

theorem skipOnKey_fault {x : Reg} {level : Bool} (h : skipOnKey s x level = .next t) :
    t.fault = if 15 < (getV s x).toNat then some .keyIndexOutOfRange else none := by
  rcases skipOnKey_cases s x level with ⟨hx, e⟩ | ⟨k, hk, e⟩
  · rw [e, raise_next] at h
    rw [h, if_pos hx]
  · rw [e, complete_next] at h
    rw [h, if_neg (by omega)]
    exact hf

/-- An instruction with no row in the table of R180 leaves the latch clear. -/
theorem exec_fault_of_not_mayFault {i : Instr} (hi : ¬MayFault i) (h : exec i s = .next t) : t.fault = none := by
  cases exec_runs h with
  | done u he ht =>
    obtain ⟨_, _, _, _, _, latch⟩ := he.writers
    rw [ht]
    exact latch.trans hf
  | wait x _ ht =>
    rw [ht]
    exact hf
  | fault k hm _ => exact absurd hm hi

/-- After an instruction on a clear latch, the latch holds the fault that its check found (R184, R188). -/
theorem exec_fault {i : Instr} (h : exec i s = .next t) : t.fault = faultCheck s i := by
  by_cases hi : MayFault i
  · rcases hi with ⟨nnn, rfl⟩ | rfl | ⟨x, rfl⟩ | ⟨x, rfl⟩ | ⟨x, y, n, rfl⟩ | ⟨x, rfl⟩ | ⟨x, rfl⟩ | ⟨x, rfl⟩
    · exact execCall_fault hf h
    · exact execRet_fault hf h
    · exact skipOnKey_fault hf h
    · exact skipOnKey_fault hf h
    · exact fault_of_unlessFault h hf
    · exact fault_of_unlessFault h hf
    · rw [faultCheck, ← length_firstRegs s x]
      exact fault_of_unlessFault h hf
    · exact fault_of_unlessFault h hf
  · rw [exec_fault_of_not_mayFault hf hi h, faultCheck_of_not_mayFault hi]

end

/-! ### The checks are the table of R180 -/

/-- The faults of a store of at most the 16 bytes of an instruction: one that begins below 0x200 stays within memory, so only one is due
(R66, R67). -/
theorem writeCheck_eq_some {a n : Nat} {k : Fault} (hn : 0 < n) (hn' : n ≤ 16) :
    writeCheck a n = some k ↔ (k = .addressOutOfRange ∧ 4096 < a + n) ∨ (k = .protectedWrite ∧ a < 0x200) := by
  by_cases h : 4096 < a + n
  · have ha : ¬a < 0x200 := by omega
    simp [writeCheck_of_above hn h, h, ha, eq_comm]
  · by_cases ha : a < 0x200
    · simp [writeCheck_of_below hn ha (by omega), h, ha, eq_comm]
    · simp [(writeCheck_eq_none hn).2 ⟨Nat.not_lt.1 ha, Nat.not_lt.1 h⟩, h, ha]

/-- With the instruction decoded, each row of R180 is about that instruction alone. -/
theorem faultCheck_eq_some_iff {s : State} {i : Instr} (hd : Decodes s i) (k : Fault) :
    faultCheck s i = some k ↔ FaultDue s k := by
  have decoded (j : Instr) : Decodes s j ↔ i = j := ⟨decodes_unique hd, fun h => h ▸ hd⟩
  have hpc : ¬0xFFF < s.pc.toNat + 1 := Nat.not_lt.2 hd.1
  cases i with
  | drw | ldm =>
    cases k <;> simp [FaultDue, decoded, hpc, faultCheck, readCheck_eq_some]
    omega
  | bcd =>
    cases k <;> simp [FaultDue, decoded, hpc, faultCheck, writeCheck_eq_some]
    omega
  | stm x =>
    have check (k : Fault) := writeCheck_eq_some (a := s.index.toNat) (k := k) (Nat.succ_pos x.val) x.isLt
    cases k <;> simp [FaultDue, decoded, hpc, faultCheck, check]
    omega
  | _ => cases k <;> simp [FaultDue, decoded, hpc, faultCheck]

/-- Where no instruction is decoded only the row of the fetch is left (R102). -/
theorem faultDue_iff_of_not_decodes {s : State} (hd : ∀ i, ¬Decodes s i) (k : Fault) :
    FaultDue s k ↔ k = .addressOutOfRange ∧ 0xFFF < s.pc.toNat + 1 := by
  cases k <;> simp [FaultDue, hd]

/-- Settles O13: a failed fetch and an unmatched word decode no instruction, and an instruction takes the fault that its check finds. -/
theorem faultsRaisedExactlyWhenDue : Obligations.FaultsRaisedExactlyWhenDue := by
  intro s t k hf h
  rcases step_cases h with ⟨_, hk, _⟩ | ⟨_, hw, rfl⟩ | ⟨op, why, _, hw, hd, hu⟩ | ⟨op, i, _, hw, hd, hi⟩
  · exact nomatch hf.symm.trans hk
  · have hpc := fetch_eq_none.1 hw
    have none_decoded (i : Instr) : ¬Decodes s i := fun hi => Nat.not_lt.2 hi.1 hpc
    rw [faultDue_iff_of_not_decodes none_decoded, and_iff_left hpc, Option.some.injEq, eq_comm]
  · have hpc : ¬0xFFF < s.pc.toNat + 1 := Nat.not_lt.2 (fetch_eq_some.1 hw).1
    have none_decoded (i : Instr) : ¬Decodes s i := by
      rw [decodes_iff_of_fetch hw, hd]
      exact nofun
    have latch : t.fault = none := by
      rw [execUnknown, completeWith_next] at hu
      rw [hu]
      exact hf
    simp [faultDue_iff_of_not_decodes none_decoded, hpc, latch]
  · rw [exec_fault hf hi]
    exact faultCheck_eq_some_iff ((decodes_iff_of_fetch hw i).2 hd) k

end Sys2Proof.Machine
end

section
/-! PROOFS. The operations of the host (spec 60_exceptions.md R196 to R202, 70_reset_and_hazards.md R222 to R226): what each answers, and
which of them touch the screen. -/

namespace Sys2Proof.Machine

/-! ### The framebuffer and the redraw flag (R198 to R200) -/

/-- The redraw flag is cleared by its own operation and by reset only; a step sets it or leaves it (R28, R200). -/
theorem HostEffect.clears_redraw {s t : State} {c : HostCall} (h : HostEffect s c t) (hs : s.redraw = true)
    (ht : t.redraw = false) : c = .clearRedrawPending ∨ c = .restart := by
  cases h with
  | restart => exact .inr rfl
  | clearRedraw => exact .inl rfl
  | step t h => exact absurd ((step_keys_redraw h).2 hs) (Bool.eq_false_iff.1 ht)
  | load | setKey | unchanged => exact absurd hs (Bool.eq_false_iff.1 ht)

theorem HostEffect.changes_fb {s t : State} {c : HostCall} (h : HostEffect s c t) (hne : t.fb ≠ s.fb) :
    c = .step ∨ c = .restart := by
  cases h with
  | restart => exact .inr rfl
  | step => exact .inl rfl
  | load | clearRedraw | setKey | unchanged => exact absurd rfl hne

/-- Settles O56: the readings by their answers, the writers by the effect of the operation. -/
theorem displayOperations : Obligations.DisplayOperations :=
  ⟨fun _ => ⟨rfl, rfl, rfl⟩, fun _ _ _ _ h => (hostCallOn_effect h).clears_redraw,
    fun _ _ _ _ h => (hostCallOn_effect h).changes_fb⟩

/-! ### The beep reading (R202) -/

/-- A step that raised `beep` completed, and its tick took the sound timer from 1, where the effect had left it, to 0 (R106). -/
theorem beep_of_step {s t : State} (h : step s = .next t) (hb : soundTimerFired t = true) :
    (∃ unknown, t.lastStep = some ⟨.done, true, unknown⟩) ∧ t.st = 0 ∧ ∃ u, CycleEffect s u ∧ u.st = 1 := by
  rcases step_ends h with ⟨u, unknown, he, rfl⟩ | rfl | ⟨k, rfl⟩
  · have beep : beepOf u = true := hb
    have hu : u.st = 1 := of_decide_eq_true beep
    have ht : countDown u.st = 0 := by rw [hu]; rfl
    exact ⟨⟨unknown, by rw [beep]⟩, ht, u, he, hu⟩
  · exact nomatch hb
  · exact nomatch hb

/-- Settles O57: only `Fx18` leaves the sound timer with another value to tick from than it had before the step. -/
theorem soundTimerFiredReading : Obligations.SoundTimerFiredReading := by
  refine ⟨fun _ => rfl, fun s hs => ?_, fun s t h => ⟨⟨fun hb => (beep_of_step h hb).1, fun ⟨_, hl⟩ => ?_⟩, fun hb => ?_⟩,
    fun s t h hn hb => ?_⟩
  · rw [soundTimerFired, hs]
  · rw [soundTimerFired, hl]
  · obtain ⟨_, ht, _⟩ := beep_of_step h hb
    exact ht
  · obtain ⟨_, _, u, he, hu⟩ := beep_of_step h hb
    have kept : u.st = s.st := by_contra fun hne => (he.timerWriters.2 hne).elim hn
    rw [← kept, hu]

/-! ### The key latch (R201) -/

theorem hostSetKey_of_lt {index : Nat} (h : index < 16) (s : State) (pressed : Bool) :
    hostSetKey s index pressed = .answered { s with keys := s.keys.set index pressed } .unit := dif_pos h

theorem hostSetKey_of_not_lt {index : Nat} (h : ¬index < 16) (s : State) (pressed : Bool) :
    hostSetKey s index pressed = .refused .keyIndexOutsideLatch := dif_neg h

/-- A key after one latch bit is written. -/
theorem keyDown_setKey (s : State) (k j : Key) (pressed : Bool) :
    keyDown { s with keys := s.keys.set k.val pressed } j = if j = k then pressed else keyDown s j := by
  simp only [keyDown, Fin.getElem_fin, Vector.getElem_set, Fin.ext_iff, eq_comm]

/-- Settles O55: a key of the latch is below 16, and the write is to its bit alone. -/
theorem setKeyResult : Obligations.SetKeyResult := fun s k pressed =>
  ⟨_, hostSetKey_of_lt k.isLt s pressed, rfl, (keyDown_setKey s k k pressed).trans (if_pos rfl),
    fun j hj => (keyDown_setKey s k j pressed).trans (if_neg hj)⟩

/-! ### The program load (R224 to R226) -/

theorem image_wellFormed_iff {bytes : Image} : bytes.wellFormed = true ↔ bytes.length ≤ 3584 := decide_eq_true_iff

theorem hostLoad_of_le {s : State} {bytes : Image} (hs : s.lastStep = none) (hb : bytes.length ≤ 3584) :
    hostLoad s bytes = .answered (loadImage s bytes) .loaded := by
  simp [hostLoad, hs, image_wellFormed_iff, hb]

theorem hostLoad_of_gt {s : State} {bytes : Image} (hs : s.lastStep = none) (hb : 3584 < bytes.length) :
    hostLoad s bytes = .answered s .imageTooLarge := by
  simp [hostLoad, hs, image_wellFormed_iff, hb]

theorem hostLoad_of_some {s : State} {o : StepOutputs} (hs : s.lastStep = some o) (bytes : Image) :
    hostLoad s bytes = .refused .loadAfterStep := by
  simp [hostLoad, hs]

/-- What a byte reads as after an image that fits is loaded (R224). -/
theorem readByte_loadImage {s : State} {bytes : Image} (hwf : Memory.wf s.mem = true) (hb : bytes.length ≤ 3584) (a : Nat) :
    readByte (loadImage s bytes).mem a =
      if 0x200 ≤ a ∧ a < 0x200 + bytes.length then bytes.getD (a - 0x200) 0 else readByte s.mem a := by
  have fits : Config.progBase + bytes.length ≤ Config.memSize := by
    simp only [Config.progBase, Config.memSize]
    omega
  exact readByte_writeBytes hwf fits a

/-- Settles O53: the load by the length of the image, memory after it by the run stored. -/
theorem loadProgramResult : Obligations.LoadProgramResult := by
  intro s bytes hwf hs
  refine ⟨fun hb => ⟨_, hostLoad_of_le hs hb, rfl, fun k hk => ?_, fun a ha => ?_⟩, hostLoad_of_gt hs⟩
  · rw [readByte_loadImage hwf hb, if_pos (by omega), Nat.add_sub_cancel_left]
  · rw [readByte_loadImage hwf hb, if_neg (by omega)]

/-! ### Refusals (R201, R222, R225) -/

theorem hostStep_of_next {s t : State} (h : step s = .next t) : hostStep s = .answered t (.outputs t.lastStep) := by
  simp [hostStep, h]

/-- Settles O54: before the reset no operation but it has a case; every step records its outputs, which a load then finds. -/
theorem boundaryRefusals : Obligations.BoundaryRefusals := by
  refine ⟨fun p c hc => ?_, fun s t o bytes h => ?_, fun s index pressed hi => hostSetKey_of_not_lt (by omega) s pressed⟩
  · cases c with
    | restart => exact absurd rfl hc
    | _ => rfl
  · obtain ⟨t', o', hstep, ho⟩ := stepAlwaysAnswersNext s
    obtain ⟨rfl, _⟩ := HostReply.answered.inj ((hostStep_of_next hstep).symm.trans h)
    exact hostLoad_of_some ho bytes

end Sys2Proof.Machine
end
